-- ==== Sys2Proof/Word.lean ====
section
/-! DEFINITION. The widths of the engine's data (spec/00_scope.md R6, R9): every value is unsigned, and no value is sign-extended. -/

namespace Sys2Proof

/-- A memory byte or general register value, 8 bits (R6 `V_WIDTH`). -/
abbrev Byte := BitVec 8

/-- A 16-bit value: an instruction word, PC, I, or a stack slot (R6). -/
abbrev Word := BitVec 16

/-- The address immediate `NNN`, 12 bits (spec/30_encoding.md R91). -/
abbrev Addr12 := BitVec 12

/-- The row count `N` of DRW, 4 bits (R91). -/
abbrev Nibble := BitVec 4

/-- A general register's index, always 0 to 15 (spec/10_state.md R21). -/
abbrev Reg := Fin 16

/-- VF, the flag register, is `V[15]` (spec/10_state.md R22). -/
abbrev vF : Reg := 15

end Sys2Proof
end

