-- ==== Sys2Proof/Syntax.lean ====
section
/-! DEFINITION. The 35 operations of the opcode map (spec/30_encoding.md R95), one constructor per row of spec/opcode_table.json, in the table's order. -/

namespace Sys2Proof

/-- A decoded operation with its operand fields (R92, R93). Each constructor's docstring gives the pattern, the syntax and the rule of its meaning. -/
inductive Instr where
  /-- `0NNN` other than `00E0`, `00EE`: `SYS nnn`, R123. -/
  | sys (nnn : Addr12)
  /-- `00E0`: `CLS`, R192. -/
  | cls
  /-- `00EE`: `RET`, R124. -/
  | ret
  /-- `1NNN`: `JP nnn`, R125. -/
  | jp (nnn : Addr12)
  /-- `2NNN`: `CALL nnn`, R126. -/
  | call (nnn : Addr12)
  /-- `3XKK`: `SE Vx, kk`, R127. -/
  | seImm (x : Reg) (kk : Byte)
  /-- `4XKK`: `SNE Vx, kk`, R128. -/
  | sneImm (x : Reg) (kk : Byte)
  /-- `5XY0`: `SE Vx, Vy`, R129. -/
  | seReg (x y : Reg)
  /-- `6XKK`: `LD Vx, kk`, R142. -/
  | ldImm (x : Reg) (kk : Byte)
  /-- `7XKK`: `ADD Vx, kk`, R143. -/
  | addImm (x : Reg) (kk : Byte)
  /-- `8XY0`: `LD Vx, Vy`, R144. -/
  | ldReg (x y : Reg)
  /-- `8XY1`: `OR Vx, Vy`, R145. -/
  | orReg (x y : Reg)
  /-- `8XY2`: `AND Vx, Vy`, R146. -/
  | andReg (x y : Reg)
  /-- `8XY3`: `XOR Vx, Vy`, R147. -/
  | xorReg (x y : Reg)
  /-- `8XY4`: `ADD Vx, Vy`, R148. -/
  | addReg (x y : Reg)
  /-- `8XY5`: `SUB Vx, Vy`, R149. -/
  | subReg (x y : Reg)
  /-- `8XY6`: `SHR Vx, Vy`, R150; `y` is read only under `cfg.shift_source = vy`. -/
  | shr (x y : Reg)
  /-- `8XY7`: `SUBN Vx, Vy`, R151. -/
  | subnReg (x y : Reg)
  /-- `8XYE`: `SHL Vx, Vy`, R152; `y` is read only under `cfg.shift_source = vy`. -/
  | shl (x y : Reg)
  /-- `9XY0`: `SNE Vx, Vy`, R130. -/
  | sneReg (x y : Reg)
  /-- `ANNN`: `LD I, nnn`, R170. -/
  | ldI (nnn : Addr12)
  /-- `BNNN`: `JP V0, nnn`, R131. -/
  | jpV0 (nnn : Addr12)
  /-- `CXKK`: `RND Vx, kk`, R153. -/
  | rnd (x : Reg) (kk : Byte)
  /-- `DXYN`: `DRW Vx, Vy, n`, R193. -/
  | drw (x y : Reg) (n : Nibble)
  /-- `EX9E`: `SKP Vx`, R213. -/
  | skp (x : Reg)
  /-- `EXA1`: `SKNP Vx`, R214. -/
  | sknp (x : Reg)
  /-- `FX07`: `LD Vx, DT`, R216. -/
  | ldVxDt (x : Reg)
  /-- `FX0A`: `LD Vx, K`, R215. -/
  | ldVxK (x : Reg)
  /-- `FX15`: `LD DT, Vx`, R217. -/
  | ldDtVx (x : Reg)
  /-- `FX18`: `LD ST, Vx`, R218. -/
  | ldStVx (x : Reg)
  /-- `FX1E`: `ADD I, Vx`, R171. -/
  | addI (x : Reg)
  /-- `FX29`: `LD F, Vx`, R172. -/
  | ldF (x : Reg)
  /-- `FX33`: `LD B, Vx`, R173. -/
  | ldB (x : Reg)
  /-- `FX55`: `LD [I], Vx`, R174. -/
  | ldMemVx (x : Reg)
  /-- `FX65`: `LD Vx, [I]`, R175. -/
  | ldVxMem (x : Reg)
  deriving DecidableEq, Repr

end Sys2Proof
end

