-- ==== Sys2Proof/Decode.lean ====
section
/-! DEFINITION. The decoder of spec/30_encoding.md R94, total on every word and every list of bytes, and the encoder and the syntax lines (R100) read from the same opcode map (R95). The bit patterns other than `00E0`, `6XKK` and `0NNN` are the spec's general knowledge (its B-1): log 5. -/

namespace Sys2Proof

/-- Why the decoder gives no instruction. -/
inductive DecodeError where
  /-- `UnknownOpcode(w)`: the word is in the illegal set (R96). Raised by `decode`; the Step turns it into the error of spec/60_exceptions.md R230, code 6. Safe. -/
  | unknownOpcode (w : Word)
  /-- Fewer than two bytes are left. Raised by `decodeBytes` only, never by a Step, whose fetch always gives a whole word (R90). Safe. -/
  | truncated
  deriving DecidableEq, Repr

/-- `X = w[11:8]` (R91). -/
def fieldX (w : Word) : Reg := (w.extractLsb' 8 4).toFin

/-- `Y = w[7:4]` (R91). -/
def fieldY (w : Word) : Reg := (w.extractLsb' 4 4).toFin

/-- `N = w[3:0]` (R91). -/
def fieldN (w : Word) : Nibble := w.extractLsb' 0 4

/-- `KK = w[7:0]` (R91). -/
def fieldKK (w : Word) : Byte := w.extractLsb' 0 8

/-- `NNN = w[11:0]` (R91). -/
def fieldNNN (w : Word) : Addr12 := w.extractLsb' 0 12

/-- Family `0x0` (R94, R97): the two fixed words first, every other word is SYS. -/
def decode0 (w : Word) : Instr :=
  if w = 0x00E0#16 then .cls
  else if w = 0x00EE#16 then .ret
  else .sys (fieldNNN w)

/-- Family `0x8` (R94): the low nibble selects among nine operations. -/
def decode8 (w : Word) : Except DecodeError Instr :=
  match (fieldN w).toNat with
  | 0x0 => .ok (.ldReg (fieldX w) (fieldY w))
  | 0x1 => .ok (.orReg (fieldX w) (fieldY w))
  | 0x2 => .ok (.andReg (fieldX w) (fieldY w))
  | 0x3 => .ok (.xorReg (fieldX w) (fieldY w))
  | 0x4 => .ok (.addReg (fieldX w) (fieldY w))
  | 0x5 => .ok (.subReg (fieldX w) (fieldY w))
  | 0x6 => .ok (.shr (fieldX w) (fieldY w))
  | 0x7 => .ok (.subnReg (fieldX w) (fieldY w))
  | 0xE => .ok (.shl (fieldX w) (fieldY w))
  | _ => .error (.unknownOpcode w)

/-- Family `0xE` (R94): the low byte selects SKP or SKNP. -/
def decodeE (w : Word) : Except DecodeError Instr :=
  match (fieldKK w).toNat with
  | 0x9E => .ok (.skp (fieldX w))
  | 0xA1 => .ok (.sknp (fieldX w))
  | _ => .error (.unknownOpcode w)

/-- Family `0xF` (R94): the low byte selects among nine operations. -/
def decodeF (w : Word) : Except DecodeError Instr :=
  match (fieldKK w).toNat with
  | 0x07 => .ok (.ldVxDt (fieldX w))
  | 0x0A => .ok (.ldVxK (fieldX w))
  | 0x15 => .ok (.ldDtVx (fieldX w))
  | 0x18 => .ok (.ldStVx (fieldX w))
  | 0x1E => .ok (.addI (fieldX w))
  | 0x29 => .ok (.ldF (fieldX w))
  | 0x33 => .ok (.ldB (fieldX w))
  | 0x55 => .ok (.ldMemVx (fieldX w))
  | 0x65 => .ok (.ldVxMem (fieldX w))
  | _ => .error (.unknownOpcode w)

/-- `decode(w)` (R94). Families 5 and 9 demand `N = 0` (the spec's decision D13: log 13). -/
def decode (w : Word) : Except DecodeError Instr :=
  match (w.extractLsb' 12 4).toNat with
  | 0x0 => .ok (decode0 w)
  | 0x1 => .ok (.jp (fieldNNN w))
  | 0x2 => .ok (.call (fieldNNN w))
  | 0x3 => .ok (.seImm (fieldX w) (fieldKK w))
  | 0x4 => .ok (.sneImm (fieldX w) (fieldKK w))
  | 0x5 => if fieldN w = 0 then .ok (.seReg (fieldX w) (fieldY w)) else .error (.unknownOpcode w)
  | 0x6 => .ok (.ldImm (fieldX w) (fieldKK w))
  | 0x7 => .ok (.addImm (fieldX w) (fieldKK w))
  | 0x8 => decode8 w
  | 0x9 => if fieldN w = 0 then .ok (.sneReg (fieldX w) (fieldY w)) else .error (.unknownOpcode w)
  | 0xA => .ok (.ldI (fieldNNN w))
  | 0xB => .ok (.jpV0 (fieldNNN w))
  | 0xC => .ok (.rnd (fieldX w) (fieldKK w))
  | 0xD => .ok (.drw (fieldX w) (fieldY w) (fieldN w))
  | 0xE => decodeE w
  | _ => decodeF w

/-- The word of two bytes, the byte at the lower address the more significant (R90, spec/20_memory.md R64). -/
def wordOfBytes (hi lo : Byte) : Word := hi ++ lo

/-- The more significant byte of a word, the one stored at the lower address (R64). -/
def highByte (w : Word) : Byte := w.extractLsb' 8 8

/-- The less significant byte of a word (R64). -/
def lowByte (w : Word) : Byte := w.extractLsb' 0 8

/-- Decoding a list of bytes: the instruction of the first two and the bytes that follow (R90). -/
def decodeBytes : List Byte → Except DecodeError (Instr × List Byte)
  | hi :: lo :: rest =>
    match decode (wordOfBytes hi lo) with
    | .ok i => .ok (i, rest)
    | .error e => .error e
  | _ => .error .truncated

/-- The low `nbits` bits of `w` as an instruction word: with 16-bit words, bit 0 of the table's numbering is bit 0 of the word, and every bit above `nbits` is 0. -/
def tableWord (nbits w : Nat) : Word := BitVec.ofNat 16 (w % 2 ^ nbits)

/-- What the decoder reads from an instruction whose bits are `w`, laid out high byte first as the hardware stores it. -/
def decodeTableWord (nbits w : Nat) : Option Instr :=
  match decodeBytes [highByte (tableWord nbits w), lowByte (tableWord nbits w)] with
  | .ok (i, _) => some i
  | .error _ => none

/-- A register index as its 4-bit field (R91). -/
def regBits (r : Reg) : Nibble := BitVec.ofFin r

/-- Formats `FA` (R92): family nibble and address. -/
def encodeFA (op : Nibble) (nnn : Addr12) : Word := op ++ nnn

/-- Format `FXK` (R92), and format `FX`, whose low byte is the sub-opcode. -/
def encodeFXK (op : Nibble) (x : Reg) (kk : Byte) : Word := op ++ (regBits x ++ kk)

/-- Format `FXY` (R92), whose low nibble is the sub-opcode, and format `FXYN`. -/
def encodeFXY (op : Nibble) (x y : Reg) (n : Nibble) : Word := op ++ (regBits x ++ (regBits y ++ n))

/-- The word of an instruction, from the pattern column of R95. -/
def encode : Instr → Word
  | .sys nnn => encodeFA 0x0 nnn
  | .cls => 0x00E0
  | .ret => 0x00EE
  | .jp nnn => encodeFA 0x1 nnn
  | .call nnn => encodeFA 0x2 nnn
  | .seImm x kk => encodeFXK 0x3 x kk
  | .sneImm x kk => encodeFXK 0x4 x kk
  | .seReg x y => encodeFXY 0x5 x y 0x0
  | .ldImm x kk => encodeFXK 0x6 x kk
  | .addImm x kk => encodeFXK 0x7 x kk
  | .ldReg x y => encodeFXY 0x8 x y 0x0
  | .orReg x y => encodeFXY 0x8 x y 0x1
  | .andReg x y => encodeFXY 0x8 x y 0x2
  | .xorReg x y => encodeFXY 0x8 x y 0x3
  | .addReg x y => encodeFXY 0x8 x y 0x4
  | .subReg x y => encodeFXY 0x8 x y 0x5
  | .shr x y => encodeFXY 0x8 x y 0x6
  | .subnReg x y => encodeFXY 0x8 x y 0x7
  | .shl x y => encodeFXY 0x8 x y 0xE
  | .sneReg x y => encodeFXY 0x9 x y 0x0
  | .ldI nnn => encodeFA 0xA nnn
  | .jpV0 nnn => encodeFA 0xB nnn
  | .rnd x kk => encodeFXK 0xC x kk
  | .drw x y n => encodeFXY 0xD x y n
  | .skp x => encodeFXK 0xE x 0x9E
  | .sknp x => encodeFXK 0xE x 0xA1
  | .ldVxDt x => encodeFXK 0xF x 0x07
  | .ldVxK x => encodeFXK 0xF x 0x0A
  | .ldDtVx x => encodeFXK 0xF x 0x15
  | .ldStVx x => encodeFXK 0xF x 0x18
  | .addI x => encodeFXK 0xF x 0x1E
  | .ldF x => encodeFXK 0xF x 0x29
  | .ldB x => encodeFXK 0xF x 0x33
  | .ldMemVx x => encodeFXK 0xF x 0x55
  | .ldVxMem x => encodeFXK 0xF x 0x65

/-- The two bytes of an instruction in memory order (R90). -/
def encodeBytes (i : Instr) : List Byte := [highByte (encode i), lowByte (encode i)]

/-! ### Assembly syntax (R100, R101): one line for one word -/

/-- A hexadecimal digit. -/
def hexDigit (n : Nat) : Char :=
  if n < 10 then Char.ofNat (48 + n) else Char.ofNat (55 + n)

/-- `V0` to `VF` (R100). -/
def regName (r : Reg) : String := String.ofList ['V', hexDigit r.val]

/-- A byte as `0x` and two digits (R100). -/
def byteText (b : Byte) : String := String.ofList ['0', 'x', hexDigit (b.toNat / 16), hexDigit (b.toNat % 16)]

/-- A 12-bit address as `0x` and three digits (R100). -/
def addrText (a : Addr12) : String :=
  String.ofList ['0', 'x', hexDigit (a.toNat / 256), hexDigit (a.toNat / 16 % 16), hexDigit (a.toNat % 16)]

/-- The syntax line of an instruction, from the syntax column of R95 (R100). DESIGN CHOICE (log 21): R100 gives no radix for the count `n` of DRW, which is written in decimal here, 10 to 15 as two digits. Also the model's choice among the forms R100 admits (log 21): bytes and addresses as `0x` with two and three upper-case digits, and the shifts with their `Y` field; a source line without it stands for `Y = 0`. -/
def Instr.asm : Instr → String
  | .sys nnn => "SYS " ++ addrText nnn
  | .cls => "CLS"
  | .ret => "RET"
  | .jp nnn => "JP " ++ addrText nnn
  | .call nnn => "CALL " ++ addrText nnn
  | .seImm x kk => "SE " ++ regName x ++ ", " ++ byteText kk
  | .sneImm x kk => "SNE " ++ regName x ++ ", " ++ byteText kk
  | .seReg x y => "SE " ++ regName x ++ ", " ++ regName y
  | .ldImm x kk => "LD " ++ regName x ++ ", " ++ byteText kk
  | .addImm x kk => "ADD " ++ regName x ++ ", " ++ byteText kk
  | .ldReg x y => "LD " ++ regName x ++ ", " ++ regName y
  | .orReg x y => "OR " ++ regName x ++ ", " ++ regName y
  | .andReg x y => "AND " ++ regName x ++ ", " ++ regName y
  | .xorReg x y => "XOR " ++ regName x ++ ", " ++ regName y
  | .addReg x y => "ADD " ++ regName x ++ ", " ++ regName y
  | .subReg x y => "SUB " ++ regName x ++ ", " ++ regName y
  | .shr x y => "SHR " ++ regName x ++ ", " ++ regName y
  | .subnReg x y => "SUBN " ++ regName x ++ ", " ++ regName y
  | .shl x y => "SHL " ++ regName x ++ ", " ++ regName y
  | .sneReg x y => "SNE " ++ regName x ++ ", " ++ regName y
  | .ldI nnn => "LD I, " ++ addrText nnn
  | .jpV0 nnn => "JP V0, " ++ addrText nnn
  | .rnd x kk => "RND " ++ regName x ++ ", " ++ byteText kk
  | .drw x y n => "DRW " ++ regName x ++ ", " ++ regName y ++ ", " ++ toString n.toNat
  | .skp x => "SKP " ++ regName x
  | .sknp x => "SKNP " ++ regName x
  | .ldVxDt x => "LD " ++ regName x ++ ", DT"
  | .ldVxK x => "LD " ++ regName x ++ ", K"
  | .ldDtVx x => "LD DT, " ++ regName x
  | .ldStVx x => "LD ST, " ++ regName x
  | .addI x => "ADD I, " ++ regName x
  | .ldF x => "LD F, " ++ regName x
  | .ldB x => "LD B, " ++ regName x
  | .ldMemVx x => "LD [I], " ++ regName x
  | .ldVxMem x => "LD " ++ regName x ++ ", [I]"

end Sys2Proof
end

