-- ==== Sys2Proof/Config.lean ====
section
/-! DEFINITION. The configuration record `cfg` (spec/00_scope.md R8) and the free values the host supplies (spec/44_input_timers.md R219, spec/60_exceptions.md R240). -/

namespace Sys2Proof

/-- `cfg.shift_source`: which register the shifts read (spec/41_alu.md R150, R152). -/
inductive ShiftSource where
  | vx
  | vy
  deriving DecidableEq, Repr

/-- `cfg.jump_offset`: which register `JP V0, nnn` adds (spec/40_control_flow.md R131). -/
inductive JumpOffset where
  | v0
  | vx
  deriving DecidableEq, Repr

/-- `cfg.index_overflow`: the overflow test of `ADD I, Vx` (spec/42_index_memory.md R171). -/
inductive IndexOverflow where
  | ceiling12
  | bit3
  deriving DecidableEq, Repr

/-- `cfg.loadstore_increment`: whether the block transfers advance `I` (spec/42_index_memory.md R174, R175). -/
inductive LoadStoreIncrement where
  | none
  | xPlus1
  deriving DecidableEq, Repr

/-- `cfg.draw_vertical`: what happens to sprite rows past the bottom edge (spec/43_display.md R193). -/
inductive DrawVertical where
  | wrap
  | clip
  deriving DecidableEq, Repr

/-- `cfg.font_index_mode` and `cfg.key_index_mode`: an index of 16 or more is an error, or is taken mod 16 (spec/42_index_memory.md R172, spec/44_input_timers.md R211). -/
inductive IndexMode where
  | fault
  | mask
  deriving DecidableEq, Repr

/-- The configuration record of R8, fixed when the engine is built. No instruction reads it as data or changes it (spec/10_state.md R32). -/
structure Config where
  shiftSource : ShiftSource
  jumpOffset : JumpOffset
  indexOverflow : IndexOverflow
  loadStoreIncrement : LoadStoreIncrement
  drawVertical : DrawVertical
  fontIndexMode : IndexMode
  keyIndexMode : IndexMode
  fontTable : Vector Byte 80
  deriving DecidableEq, Repr

/-- FREE VALUE: how many Ticks the host performs before Step number `n` (spec/60_exceptions.md R240: every interleaving is admitted). Log 9. -/
opaque Config.freeTicks : Nat → Nat

/-- FREE VALUE: the key vector the host gives with Step number `n` (spec/44_input_timers.md R210). Log 8. -/
opaque Config.freeKeys : Nat → BitVec 16

/-- FREE VALUE: the random byte the host gives with Step number `n`, "a free draw of any byte value per step, under no law" (spec/44_input_timers.md R219). Log 8. -/
opaque Config.freeRand : Nat → Byte

end Sys2Proof
end

