-- ==== Sys2Proof/Machine/Build.lean ====
section
/-! DEFINITION. The constants the engine is built with: the memory size, the reset vector, the default configuration record (spec/00_scope.md R6, R8), the font bytes (spec/20_memory.md R70) and the reset contents of memory (R69). -/

namespace Sys2Proof.Machine

/-- `MEM_SIZE`, 4096 bytes (R6). -/
def memSize : Nat := 4096

/-- `ROM_BASE`, the reset value of PC and the place of the ROM image (R6, spec/70_reset_and_hazards.md R261). -/
def romBase : Nat := 0x200

/-- `FONT_BASE` (R6). -/
def fontBase : Nat := 0x050

/-- Glyphs 0 to 7 of the table of R70, one glyph a group of five. -/
def fontGlyphs0To7 : Vector Byte 40 :=
  #v[0xF0, 0x90, 0x90, 0x90, 0xF0,  0x20, 0x60, 0x20, 0x20, 0x70,
     0xF0, 0x10, 0xF0, 0x80, 0xF0,  0xF0, 0x10, 0xF0, 0x10, 0xF0,
     0x90, 0x90, 0xF0, 0x10, 0x10,  0xF0, 0x80, 0xF0, 0x10, 0xF0,
     0xF0, 0x80, 0xF0, 0x90, 0xF0,  0xF0, 0x10, 0x20, 0x40, 0x40]

/-- Glyphs 8 to F of the table of R70. -/
def fontGlyphs8ToF : Vector Byte 40 :=
  #v[0xF0, 0x90, 0xF0, 0x90, 0xF0,  0xF0, 0x90, 0xF0, 0x10, 0xF0,
     0xF0, 0x90, 0xF0, 0x90, 0x90,  0xE0, 0x90, 0xE0, 0x90, 0xE0,
     0xF0, 0x80, 0x80, 0x80, 0xF0,  0xE0, 0x90, 0x90, 0x90, 0xE0,
     0xF0, 0x80, 0xF0, 0x80, 0xF0,  0xF0, 0x80, 0xF0, 0x80, 0x80]

/-- The conventional font of R70, 16 glyphs of 5 bytes. PRESUMED by the spec itself (general knowledge): log 4. -/
def defaultFont : Vector Byte 80 :=
  fontGlyphs0To7 ++ fontGlyphs8ToF

/-- The defaults of R8, each the spec's own decision (D5 to D11, D15): log 2. -/
def defaultConfig : Config where
  shiftSource := .vx
  jumpOffset := .v0
  indexOverflow := .ceiling12
  loadStoreIncrement := .none
  drawVertical := .wrap
  fontIndexMode := .fault
  keyIndexMode := .fault
  fontTable := defaultFont

/-- What an address that the memory list does not name reads as: the reset contents of memory, the font table at `[0x050, 0x0A0)` and 0 elsewhere (spec/20_memory.md R69, spec/10_state.md R36). Log 6. -/
def resetByte (c : Config) (a : Nat) : Byte :=
  if h : fontBase ≤ a ∧ a < fontBase + 80 then c.fontTable[a - fontBase]'(by omega) else 0

end Sys2Proof.Machine
end

