-- ==== Sys2Proof/Machine/State.lean ====
section
/-! DEFINITION. The engine's state as plain data (spec/10_state.md R20 to R36), its errors (spec/60_exceptions.md R230) and its reset value (spec/70_reset_and_hazards.md R260). -/

namespace Sys2Proof.Machine

/-- The wait mode `WM` (spec/10_state.md R30). -/
inductive WaitMode where
  | running
  | awaitingKey
  deriving DecidableEq, Repr

/-- The engine's errors with the info each records (spec/60_exceptions.md R230). -/
inductive Err where
  /-- Code 1: a byte address of 4096 or more, the first failing one. -/
  | memoryOutOfRange (addr : Word)
  /-- Code 2: a ROM of 3584 bytes or more; raised by LoadRom only. -/
  | romTooLarge (len : Nat)
  /-- Code 3: `LD F, Vx` with `V[X] >= 16` under `cfg.font_index_mode = fault`. -/
  | invalidFontIndex (v : Byte)
  /-- Code 4: CALL with a full stack. -/
  | stackOverflow
  /-- Code 5: RET with an empty stack. -/
  | stackUnderflow
  /-- Code 6: the fetched word is in the illegal set of spec/30_encoding.md R96. -/
  | unknownOpcode (w : Word)
  /-- Code 7: SKP or SKNP with `V[X] >= 16` under `cfg.key_index_mode = fault`. -/
  | invalidKeyIndex (v : Byte)
  deriving DecidableEq, Repr

/-- The result of a transaction, and what `RES` holds (spec/10_state.md R33). -/
inductive Result where
  | ok
  | err (e : Err)
  deriving DecidableEq, Repr

/-- The framebuffer: 32 rows of 64 one-bit pixels, `true` for 1 (spec/10_state.md R28). -/
abbrev Frame := Vector (Vector Bool 64) 32

/-- Memory as the list of the bytes that differ from their reset contents, addresses strictly rising (log 6). -/
abbrev Memory := List Host.Cell

/-- What the host does up to and with one Step (spec/60_exceptions.md R240, R245): `ticks` Ticks, then `Step(keys, rand)`. -/
structure HostTurn where
  ticks : Nat
  keys : BitVec 16
  rand : Byte
  deriving DecidableEq, Repr

/-- The engine state (R20). The last four fields are the model's own, not the spec's state: the configuration parameter (log 1) and the host's inputs (log 8). -/
structure State where
  /-- `V[0..15]` (R21); `V[15]` is VF (R22). -/
  v : Vector Byte 16
  /-- The index register `I` (R23). -/
  i : Word
  /-- `PC` (R24). -/
  pc : Word
  /-- The stack slots `S[0..15]` (R26). -/
  stack : Vector Word 16
  /-- `SP`, the count of entries in use, 0 to 16 (R26). -/
  sp : Fin 17
  /-- The delay timer (R27). -/
  dt : Byte
  /-- The sound timer (R27). -/
  st : Byte
  /-- `Fb[r][c]` is `fb[r][c]` (R28). -/
  fb : Frame
  /-- The key snapshot; bit `k` is `K[k]` (R29). -/
  keys : BitVec 16
  /-- `WM` (R30). -/
  wm : WaitMode
  /-- `M` (R31). -/
  mem : Memory
  /-- `RES` (R33). -/
  res : Result
  /-- The configuration record (spec/00_scope.md R8), which no step changes. -/
  cfg : Config
  /-- The random byte of the current Step (spec/44_input_timers.md R219). -/
  rand : Byte
  /-- The host's coming turns; past its end each turn is a free value of Config. -/
  turns : List HostTurn
  /-- How many Steps have been taken: the index of the free values. -/
  turnNo : Nat
  deriving DecidableEq, Repr

/-- The machine stops with a fault. No constructor: the engine never halts, an error is a next state with `RES = Err(code, info)` (spec/60_exceptions.md R232, R235); log 7. -/
inductive Fault where
  deriving DecidableEq, Repr

/-- The model gives an instruction no meaning. -/
inductive Refusal where
  /-- Raised by an arm of `exec` whose instruction has no meaning yet; no arm is left that raises it. Safe: the model stops where the hardware goes on. -/
  | notModelled (mnemonic : String)
  deriving DecidableEq, Repr

/-- The state after Reset of an engine built with `c` (R36, R260): the host's inputs are unknown (log 8). -/
def State.resetWith (c : Config) : State where
  v := Vector.replicate 16 0
  i := 0
  pc := BitVec.ofNat 16 romBase
  stack := Vector.replicate 16 0
  sp := 0
  dt := 0
  st := 0
  fb := Vector.replicate 32 (Vector.replicate 64 false)
  keys := 0
  wm := .running
  mem := []
  res := .ok
  cfg := c
  rand := 0
  turns := []
  turnNo := 0

/-- The machine right after Reset, with the spec's default configuration (R8, R36). -/
def State.reset : State := State.resetWith defaultConfig

end Sys2Proof.Machine
end

