-- ==== Sys2Proof/Machine/Ops.lean ====
section
/-! DEFINITION. The named operations over registers, memory, stack, timers, and the one way an error ends a Step (spec/10_state.md R26, spec/20_memory.md R61 to R63, spec/60_exceptions.md R231, R232, R238). -/

namespace Sys2Proof.Machine

/-! ### Registers -/

/-- `V[r]` (spec/00_scope.md R10). -/
def State.getV (s : State) (r : Reg) : Byte := s.v[r]

/-- `V[r] <- b` (R10). -/
def State.setV (s : State) (r : Reg) (b : Byte) : State := { s with v := s.v.set r.val b r.isLt }

/-- `I <- w` (R10). -/
def State.setI (s : State) (w : Word) : State := { s with i := w }

/-- `PC <- w` (R10). -/
def State.setPc (s : State) (w : Word) : State := { s with pc := w }

/-- `PC <- (PC + 2) mod 2^16`: the fetch advance and the skip (spec/40_control_flow.md R121, R127). -/
def State.advance (s : State) : State := s.setPc (s.pc + 2)

/-- `PC <- (PC - 2) mod 2^16`: the rewind of the key wait (spec/44_input_timers.md R215). -/
def State.rewind (s : State) : State := s.setPc (s.pc - 2)

/-- `DT <- b` (R10). -/
def State.setDt (s : State) (b : Byte) : State := { s with dt := b }

/-- `ST <- b` (R10). -/
def State.setSt (s : State) (b : Byte) : State := { s with st := b }

/-- `WM <- m` (R10). -/
def State.setWm (s : State) (m : WaitMode) : State := { s with wm := m }

/-- Writes the whole framebuffer. -/
def State.setFb (s : State) (f : Frame) : State := { s with fb := f }

/-- Writes the whole memory. -/
def State.setMem (s : State) (m : Memory) : State := { s with mem := m }

/-! ### The end of a Step -/

/-- `RES <- Ok`: the end of a Step that raised nothing (spec/40_control_flow.md R120). -/
def State.complete (s : State) : State := { s with res := .ok }

/-- TAKING AN ERROR: `RES <- Err(code, info)`, and nothing else. No state is saved and there is no handler; every write the Step made before stays in `s` (spec/60_exceptions.md R231, R232, R234). -/
def State.raise (s : State) (e : Err) : State := { s with res := .err e }

/-- How a run of sub-operations ends: with a value, or at the first `raise`; either way with the state the writes so far have left (spec/00_scope.md R12). -/
inductive Ran (α : Type) where
  | done (a : α) (s : State)
  | raised (e : Err) (s : State)
  deriving DecidableEq, Repr

/-- The last statements of a run: `f` where the run is done, nothing where it raised (R12). -/
def Ran.andThen {α : Type} (f : α → State → State) : Ran α → Ran Unit
  | .done a s => .done () (f a s)
  | .raised e s => .raised e s

/-- Ends the Step: a run that is done completes, a run that raised takes the error. -/
def Ran.finish : Ran Unit → State
  | .done _ s => s.complete
  | .raised e s => s.raise e

/-- The code of an error (spec/60_exceptions.md R230). -/
def Err.code : Err → Nat
  | .memoryOutOfRange _ => 1
  | .romTooLarge _ => 2
  | .invalidFontIndex _ => 3
  | .stackOverflow => 4
  | .stackUnderflow => 5
  | .unknownOpcode _ => 6
  | .invalidKeyIndex _ => 7

/-- The code of a result; `Ok` is 0 (R230). -/
def Result.code : Result → Nat
  | .ok => 0
  | .err e => e.code

/-! ### Memory -/

/-- The byte a memory lists at `a`, if it lists one. -/
def Memory.listed : Memory → Nat → Option Byte
  | [], _ => none
  | (k, b) :: m, a => if k = a then some b else Memory.listed m a

/-- The byte at `a`: the listed one, or the reset contents (log 6). -/
def Memory.read (c : Config) (m : Memory) (a : Nat) : Byte := (m.listed a).getD (resetByte c a)

/-- The memory without an entry at `a`. -/
def Memory.erase : Memory → Nat → Memory
  | [], _ => []
  | (k, b) :: m, a => if k = a then Memory.erase m a else (k, b) :: Memory.erase m a

/-- The memory with an entry at `a`, put before the first entry of a greater address. -/
def Memory.insert : Memory → Nat → Byte → Memory
  | [], a, v => [(a, v)]
  | (k, b) :: m, a, v => if a < k then (a, v) :: (k, b) :: m else (k, b) :: Memory.insert m a v

/-- The memory with the byte `v` at `a`; a byte equal to the reset contents is not listed, so that equal memories are equal lists. -/
def Memory.write (c : Config) (m : Memory) (a : Nat) (v : Byte) : Memory :=
  if v = resetByte c a then m.erase a else (m.erase a).insert a v

/-- The canonical form: addresses strictly rising and inside the address space, and no entry equal to the reset contents. -/
def Memory.wf (c : Config) : Memory → Bool
  | [] => true
  | (k, b) :: m => decide (k < memSize) && b != resetByte c k && m.all (fun e => decide (k < e.1)) && Memory.wf c m

/-- The byte of memory at `a`, without the range check. -/
def State.byteAt (s : State) (a : Nat) : Byte := Memory.read s.cfg s.mem a

/-- `MemoryOutOfRange(a)` with its 16 bits of info (spec/60_exceptions.md R230, spec/20_memory.md R68); log 12. -/
def outOfRange (a : Nat) : Err := .memoryOutOfRange (BitVec.ofNat 16 a)

/-- `MemRead(addr, 1)` (spec/20_memory.md R61). -/
def State.memRead (s : State) (a : Nat) : Except Err Byte :=
  if a < memSize then .ok (s.byteAt a) else .error (outOfRange a)

/-- `MemWrite(addr, 1, v)` (R62). -/
def State.memWrite (s : State) (a : Nat) (v : Byte) : Except Err State :=
  if a < memSize then .ok (s.setMem (Memory.write s.cfg s.mem a v)) else .error (outOfRange a)

/-- `MemRead(addr, 2)`: big-endian, the high byte checked first (R63, R64). -/
def State.memReadWord (s : State) (a : Nat) : Except Err Word :=
  match s.memRead a with
  | .error e => .error e
  | .ok hi =>
    match s.memRead (a + 1) with
    | .error e => .error e
    | .ok lo => .ok (hi ++ lo)

/-- Writes bytes at `a`, `a + 1`, …, ascending; the first failing write raises and those before it stay (R78). -/
def State.storeBytes (a : Nat) : List Byte → State → Ran Unit
  | [], s => .done () s
  | b :: bs, s =>
    match s.memWrite a b with
    | .error e => .raised e s
    | .ok s' => State.storeBytes (a + 1) bs s'

/-- Reads bytes at `a`, `a + 1`, … into the registers of the list, ascending; the first failing read raises and the loads before it stay (R78). -/
def State.loadRegs (a : Nat) : List Reg → State → Ran Unit
  | [], s => .done () s
  | r :: rs, s =>
    match s.memRead a with
    | .error e => .raised e s
    | .ok b => State.loadRegs (a + 1) rs (s.setV r b)

/-! ### Call stack -/

/-- `push(v)`, `none` where it raises StackOverflow with `S` and `SP` unchanged (spec/10_state.md R26). -/
def State.push (s : State) (w : Word) : Option State :=
  if h : s.sp.val < 16 then
    some { s with stack := s.stack.set s.sp.val w h, sp := ⟨s.sp.val + 1, by omega⟩ }
  else none

/-- `pop()`, `none` where it raises StackUnderflow with `S` and `SP` unchanged; the slot keeps its value (R26). -/
def State.pop (s : State) : Option (Word × State) :=
  if h : 0 < s.sp.val then
    have hs := s.sp.isLt
    some (s.stack[s.sp.val - 1]'(by omega), { s with sp := ⟨s.sp.val - 1, by omega⟩ })
  else none

/-! ### Timers -/

/-- One Tick of a timer: minus one, floor at zero (spec/60_exceptions.md R238). -/
def tickDown (t : Byte) : Byte := if t = 0 then 0 else t - 1

/-- `n` Ticks of a timer. -/
def countDown : Nat → Byte → Byte
  | 0, t => t
  | n + 1, t => countDown n (tickDown t)

/-- The Tick transaction (R238): both timers, and nothing else. -/
def State.tick (s : State) : State := { s with dt := tickDown s.dt, st := tickDown s.st }

/-- `n` Ticks in a row. -/
def State.ticks (n : Nat) (s : State) : State := { s with dt := countDown n s.dt, st := countDown n s.st }

end Sys2Proof.Machine
end

