-- ==== Sys2Proof/Machine/Operands.lean ====
section
/-! DEFINITION. The operand forms: what an operation reads, register ranges, and the two checked indexes (spec/30_encoding.md R93). -/

namespace Sys2Proof.Machine

/-- `zext_16(NNN)` (R93). -/
def zext16 (nnn : Addr12) : Word := nnn.setWidth 16

/-- The register named by `NNN[11:8]` (spec/40_control_flow.md R131). -/
def highReg (nnn : Addr12) : Reg := (nnn.extractLsb' 8 4).toFin

/-- The register `JP V0, nnn` adds (R131). -/
def jumpReg (c : Config) (nnn : Addr12) : Reg :=
  match c.jumpOffset with
  | .v0 => 0
  | .vx => highReg nnn

/-- The register a shift reads (spec/41_alu.md R150, R152). -/
def shiftReg (c : Config) (x y : Reg) : Reg :=
  match c.shiftSource with
  | .vx => x
  | .vy => y

/-- The sixteen registers in ascending order. -/
def allRegs : List Reg := [0, 1, 2, 3, 4, 5, 6, 7, 8, 9, 10, 11, 12, 13, 14, 15]

/-- The range `V0..VX`, `X + 1` registers (R93). -/
def regsUpTo (x : Reg) : List Reg := allRegs.take (x.val + 1)

/-- `index_of_font_glyph` (spec/20_memory.md R71), the error carrying the index. -/
def fontAddr (g : Byte) : Except Err Word :=
  if g.toNat < 16 then .ok (BitVec.ofNat 16 (fontBase + 5 * g.toNat)) else .error (.invalidFontIndex g)

/-- The font index of `V[X]` (spec/42_index_memory.md R172). -/
def fontIndex (c : Config) (b : Byte) : Byte :=
  match c.fontIndexMode with
  | .fault => b
  | .mask => BitVec.ofNat 8 (b.toNat % 16)

/-- `key_of(v)` (spec/44_input_timers.md R211). -/
def keyOf (c : Config) (b : Byte) : Except Err Nat :=
  if b.toNat < 16 then .ok b.toNat
  else
    match c.keyIndexMode with
    | .fault => .error (.invalidKeyIndex b)
    | .mask => .ok (b.toNat % 16)

/-- `is_pressed(k)` (R211). -/
def State.isPressed (s : State) (k : Nat) : Bool := s.keys.getLsbD k

/-- The keys in ascending order. -/
def allKeys : List Nat := [0, 1, 2, 3, 4, 5, 6, 7, 8, 9, 10, 11, 12, 13, 14, 15]

/-- `next_key()`: the least pressed key, if any (R212). -/
def State.nextKey (s : State) : Option Nat := allKeys.find? s.isPressed

/-- The three decimal digits of a byte, hundreds first (spec/42_index_memory.md R173). -/
def bcdDigits (b : Byte) : List Byte :=
  [BitVec.ofNat 8 (b.toNat / 100), BitVec.ofNat 8 (b.toNat / 10 % 10), BitVec.ofNat 8 (b.toNat % 10)]

/-- `I <- (I + X + 1) mod 2^16` when `cfg.loadstore_increment = x_plus_1` (R174, R175). -/
def State.bumpIndex (s : State) (x : Reg) : State :=
  match s.cfg.loadStoreIncrement with
  | .none => s
  | .xPlus1 => s.setI (BitVec.ofNat 16 (s.i.toNat + x.val + 1))

end Sys2Proof.Machine
end

