-- ==== Sys2Proof/Machine/Control.lean ====
section
/-! DEFINITION. Control flow (spec/40_control_flow.md R123 to R131): SYS, RET, JP, CALL, the four register and immediate skips, JP V0. Each meaning runs after the fetch has set `PC <- a + 2` (R121). -/

namespace Sys2Proof.Machine

/-- The outcome of one instruction. -/
abbrev Outcome := Host.Outcome State Fault Refusal

/-- The skip: `PC <- (PC + 2) mod 2^16` where the condition holds. -/
def State.skipIf (c : Bool) (s : State) : State := if c then s.advance else s

/-- `SYS nnn` (R123): an intentional no-op; `nnn` is ignored. -/
def execSys (_nnn : Addr12) (s : State) : Outcome := .next s.complete

/-- `RET` (R124): `PC <- pop()`. -/
def execRet (s : State) : Outcome :=
  .next
    (match s.pop with
    | none => s.raise .stackUnderflow
    | some (w, s') => (s'.setPc w).complete)

/-- `JP nnn` (R125). -/
def execJp (nnn : Addr12) (s : State) : Outcome := .next (s.setPc (zext16 nnn)).complete

/-- `CALL nnn` (R126): `push(PC)`, then the jump. -/
def execCall (nnn : Addr12) (s : State) : Outcome :=
  .next
    (match s.push s.pc with
    | none => s.raise .stackOverflow
    | some s' => (s'.setPc (zext16 nnn)).complete)

/-- `SE Vx, kk` (R127). -/
def execSeImm (x : Reg) (kk : Byte) (s : State) : Outcome := .next (s.skipIf (s.getV x == kk)).complete

/-- `SNE Vx, kk` (R128). -/
def execSneImm (x : Reg) (kk : Byte) (s : State) : Outcome := .next (s.skipIf (s.getV x != kk)).complete

/-- `SE Vx, Vy` (R129). -/
def execSeReg (x y : Reg) (s : State) : Outcome := .next (s.skipIf (s.getV x == s.getV y)).complete

/-- `SNE Vx, Vy` (R130). -/
def execSneReg (x y : Reg) (s : State) : Outcome := .next (s.skipIf (s.getV x != s.getV y)).complete

/-- `JP V0, nnn` (R131): the register of `cfg.jump_offset` is added, mod 2^16. -/
def execJpV0 (nnn : Addr12) (s : State) : Outcome :=
  .next (s.setPc (zext16 nnn + (s.getV (jumpReg s.cfg nnn)).setWidth 16)).complete

end Sys2Proof.Machine
end

