-- ==== Sys2Proof/Machine/Cycle.lean ====
section
/-! DEFINITION. The Step transaction (spec/40_control_flow.md R120, R121) and the host's turn before it (spec/60_exceptions.md R240), over the dispatch as an argument. -/

namespace Sys2Proof.Machine

/-- `K <- keys` (spec/44_input_timers.md R210), and the Step's random byte (R219) kept where RND reads it. -/
def State.latch (keys : BitVec 16) (rand : Byte) (s : State) : State := { s with keys := keys, rand := rand }

/-- The word read of the fetch, `MemRead(PC, 2)` (R121). -/
def State.fetch (s : State) : Except Err Word := s.memReadWord s.pc.toNat

/-- `Step(keys, rand)` (R120): snapshot, fetch, PC advance, decode, execute. A failing fetch leaves PC; an illegal word leaves PC advanced (spec/60_exceptions.md R232). -/
def engineStep (execute : Instr → State → Outcome) (keys : BitVec 16) (rand : Byte) (s : State) : Outcome :=
  match (s.latch keys rand).fetch with
  | .error e => .next ((s.latch keys rand).raise e)
  | .ok w =>
    match decode w with
    | .error _ => .next ((s.latch keys rand).advance.raise (.unknownOpcode w))
    | .ok i => execute i (s.latch keys rand).advance

/-- The host's next turn: the head of the listed turns, or free values (log 8, 9). -/
def State.nextTurn (s : State) : HostTurn :=
  match s.turns with
  | t :: _ => t
  | [] => ⟨Config.freeTicks s.turnNo, Config.freeKeys s.turnNo, Config.freeRand s.turnNo⟩

/-- Takes the host's next turn off the list and performs its Ticks. -/
def State.beginTurn (s : State) : State := ({ s with turns := s.turns.tail, turnNo := s.turnNo + 1 } : State).ticks s.nextTurn.ticks

/-- One step of the machine: the Ticks of the host's next turn, then its Step (R240; log 9). -/
def cycle (execute : Instr → State → Outcome) (s : State) : Outcome :=
  engineStep execute s.nextTurn.keys s.nextTurn.rand s.beginTurn

/-- Writes a byte from outside, where the address exists. -/
def State.poke (s : State) (a : Nat) (b : Byte) : State :=
  if a < memSize then s.setMem (Memory.write s.cfg s.mem a b) else s

/-- Stores a word from outside, high byte first (spec/20_memory.md R64). -/
def State.pokeWord (s : State) (a : Nat) (w : Word) : State := (s.poke a (highByte w)).poke (a + 1) (lowByte w)

end Sys2Proof.Machine
end

