-- ==== Sys2Proof/Machine/Flags.lean ====
section
/-! DEFINITION. The flag computations: what VF receives (spec/10_state.md R22) and when (spec/41_alu.md R141). -/

namespace Sys2Proof.Machine

/-- A flag as a byte: exactly 0 or 1 (R22). -/
def flagByte (f : Bool) : Byte := if f then 1 else 0

/-- `VF <- f`. -/
def State.setFlag (s : State) (f : Bool) : State := s.setV vF (flagByte f)

/-- The result to `V[X]` first, the flag to VF last (R141; the spec's decision D12, log 16): with `X = F` the flag stays. -/
def State.setWithFlag (s : State) (x : Reg) (r : Byte) (f : Bool) : State := (s.setV x r).setFlag f

/-- The carry of `a + b` (spec/41_alu.md R148). -/
def carryFlag (a b : Byte) : Bool := decide (a.toNat + b.toNat > 255)

/-- NOT borrow of `a - b` (R149, R151). -/
def notBorrowFlag (a b : Byte) : Bool := decide (b.toNat ≤ a.toNat)

/-- The index overflow of `ADD I, Vx`, from the unbounded sum (spec/42_index_memory.md R171; D9). -/
def indexFlag (c : Config) (sum : Nat) : Bool :=
  match c.indexOverflow with
  | .ceiling12 => decide (sum > 0x0FFF)
  | .bit3 => (BitVec.ofNat 16 sum).getLsbD 3

end Sys2Proof.Machine
end

