-- ==== Sys2Proof/Machine/Alu.lean ====
section
/-! DEFINITION. Register loads, arithmetic and random (spec/41_alu.md R140 to R153). Sources are read first, the result is written next, the flag last (R141). -/

namespace Sys2Proof.Machine

/-- `LD Vx, kk` (R142). -/
def execLdImm (x : Reg) (kk : Byte) (s : State) : Outcome := .next (s.setV x kk).complete

/-- `ADD Vx, kk` (R143): mod 256, no flag. -/
def execAddImm (x : Reg) (kk : Byte) (s : State) : Outcome := .next (s.setV x (s.getV x + kk)).complete

/-- `LD Vx, Vy` (R144). -/
def execLdReg (x y : Reg) (s : State) : Outcome := .next (s.setV x (s.getV y)).complete

/-- `OR Vx, Vy` (R145): VF is not reset. -/
def execOrReg (x y : Reg) (s : State) : Outcome := .next (s.setV x (s.getV x ||| s.getV y)).complete

/-- `AND Vx, Vy` (R146). -/
def execAndReg (x y : Reg) (s : State) : Outcome := .next (s.setV x (s.getV x &&& s.getV y)).complete

/-- `XOR Vx, Vy` (R147). -/
def execXorReg (x y : Reg) (s : State) : Outcome := .next (s.setV x (s.getV x ^^^ s.getV y)).complete

/-- `ADD Vx, Vy` (R148): VF is the carry. -/
def execAddReg (x y : Reg) (s : State) : Outcome :=
  .next (s.setWithFlag x (s.getV x + s.getV y) (carryFlag (s.getV x) (s.getV y))).complete

/-- `SUB Vx, Vy` (R149): VF is NOT borrow. -/
def execSubReg (x y : Reg) (s : State) : Outcome :=
  .next (s.setWithFlag x (s.getV x - s.getV y) (notBorrowFlag (s.getV x) (s.getV y))).complete

/-- `SHR Vx, Vy` (R150): VF is bit 0 of the register shifted. -/
def execShr (x y : Reg) (s : State) : Outcome :=
  .next (s.setWithFlag x (s.getV (shiftReg s.cfg x y) >>> 1) ((s.getV (shiftReg s.cfg x y)).getLsbD 0)).complete

/-- `SUBN Vx, Vy` (R151): `V[Y] - V[X]`. -/
def execSubnReg (x y : Reg) (s : State) : Outcome :=
  .next (s.setWithFlag x (s.getV y - s.getV x) (notBorrowFlag (s.getV y) (s.getV x))).complete

/-- `SHL Vx, Vy` (R152): VF is bit 7 of the register shifted. -/
def execShl (x y : Reg) (s : State) : Outcome :=
  .next (s.setWithFlag x (s.getV (shiftReg s.cfg x y) <<< 1) ((s.getV (shiftReg s.cfg x y)).getLsbD 7)).complete

/-- `RND Vx, kk` (R153): the random byte of the Step (spec/44_input_timers.md R219), masked. -/
def execRnd (x : Reg) (kk : Byte) (s : State) : Outcome := .next (s.setV x (s.rand &&& kk)).complete

end Sys2Proof.Machine
end

