-- ==== Sys2Proof/Machine/Display.lean ====
section
/-! DEFINITION. The display: clear, the XOR byte draw with collision, CLS and DRW (spec/43_display.md R190 to R193). -/

namespace Sys2Proof.Machine

/-- `Fb[r][c]`. -/
def Frame.pixel (f : Frame) (r : Fin 32) (c : Fin 64) : Bool := f[r][c]

/-- `Fb[r][c] <- Fb[r][c] ^ 1`. -/
def Frame.flip (f : Frame) (r : Fin 32) (c : Fin 64) : Frame :=
  f.set r.val (f[r].set c.val (!f[r][c]) c.isLt) r.isLt

/-- `clear()` (R190). -/
def Frame.blank : Frame := Vector.replicate 32 (Vector.replicate 64 false)

/-- The loop of `draw_byte` (R191) from bit number `j` on, `todo` bits left: bit `7 - j` goes to column `c0 + j`, and the loop ends at the right edge. Answers the collision so far and the frame. -/
def drawBits (b : Byte) (r : Fin 32) (c0 : Nat) : (todo : Nat) → (j : Nat) → Bool → Frame → Bool × Frame
  | 0, _, hit, f => (hit, f)
  | n + 1, j, hit, f =>
    if h : c0 + j < 64 then
      if b.getLsbD (7 - j) then
        drawBits b r c0 n (j + 1) (hit || Frame.pixel f r ⟨c0 + j, h⟩) (Frame.flip f r ⟨c0 + j, h⟩)
      else drawBits b r c0 n (j + 1) hit f
    else (hit, f)

/-- `draw_byte(b, x, y)` (R191): the start wraps, the row is clipped at the right edge. -/
def drawByte (b : Byte) (x y : Nat) (f : Frame) : Bool × Frame :=
  drawBits b ⟨y % 32, Nat.mod_lt _ (by decide)⟩ (x % 64) 8 0 false f

/-- The row loop of DRW (R193) from row `k` on, `todo` rows left. Answers whether any row so far collided. -/
def State.drawRows (x0 y0 : Nat) : (todo : Nat) → (k : Nat) → Bool → State → Ran Bool
  | 0, _, hit, s => .done hit s
  | n + 1, k, hit, s =>
    if s.cfg.drawVertical = .clip ∧ 32 ≤ y0 + k then .done hit s
    else
      match s.memRead (s.i.toNat + k) with
      | .error e => .raised e s
      | .ok b =>
        State.drawRows x0 y0 n (k + 1) (hit || (drawByte b x0 (y0 + k) s.fb).1)
          (s.setFb (drawByte b x0 (y0 + k) s.fb).2)

/-- `CLS` (R192). -/
def execCls (s : State) : Outcome := .next (s.setFb Frame.blank).complete

/-- `DRW Vx, Vy, n` (R193): the rows, then VF; where a row's byte is out of range the rows before it stay drawn and VF is not written. -/
def execDrw (x y : Reg) (n : Nibble) (s : State) : Outcome :=
  .next ((State.drawRows ((s.getV x).toNat % 64) ((s.getV y).toNat % 32) n.toNat 0 false s).andThen
    (fun hit t => t.setFlag hit)).finish

end Sys2Proof.Machine
end

