-- ==== Sys2Proof/Machine/Index.lean ====
section
/-! DEFINITION. The index register and the memory transfers (spec/42_index_memory.md R170 to R175). The effective address is `I + k` on naturals (spec/20_memory.md R68). -/

namespace Sys2Proof.Machine

/-- `LD I, nnn` (R170). -/
def execLdI (nnn : Addr12) (s : State) : Outcome := .next (s.setI (zext16 nnn)).complete

/-- `ADD I, Vx` (R171): mod 2^16; VF is written last, from the unbounded sum. -/
def execAddI (x : Reg) (s : State) : Outcome :=
  .next ((s.setI (BitVec.ofNat 16 (s.i.toNat + (s.getV x).toNat))).setFlag
    (indexFlag s.cfg (s.i.toNat + (s.getV x).toNat))).complete

/-- `LD F, Vx` (R172): the glyph's address, or InvalidFontIndex with `I` unchanged. -/
def execLdF (x : Reg) (s : State) : Outcome :=
  .next
    (match fontAddr (fontIndex s.cfg (s.getV x)) with
    | .ok a => (s.setI a).complete
    | .error e => s.raise e)

/-- `LD B, Vx` (R173): hundreds, tens and units at `I`, `I + 1`, `I + 2`. -/
def execLdB (x : Reg) (s : State) : Outcome :=
  .next (State.storeBytes s.i.toNat (bcdDigits (s.getV x)) s).finish

/-- `LD [I], Vx` (R174): `V0..VX` to memory, then the optional increment. -/
def execLdMemVx (x : Reg) (s : State) : Outcome :=
  .next ((State.storeBytes s.i.toNat ((regsUpTo x).map s.getV) s).andThen (fun _ t => t.bumpIndex x)).finish

/-- `LD Vx, [I]` (R175): memory to `V0..VX`, then the optional increment. -/
def execLdVxMem (x : Reg) (s : State) : Outcome :=
  .next ((State.loadRegs s.i.toNat (regsUpTo x) s).andThen (fun _ t => t.bumpIndex x)).finish

end Sys2Proof.Machine
end

