-- ==== Sys2Proof/Machine/Input.lean ====
section
/-! DEFINITION. Keys, the key wait and the timer copies (spec/44_input_timers.md R211 to R218). -/

namespace Sys2Proof.Machine

/-- `SKP Vx` (R213). -/
def execSkp (x : Reg) (s : State) : Outcome :=
  .next
    (match keyOf s.cfg (s.getV x) with
    | .ok k => (s.skipIf (s.isPressed k)).complete
    | .error e => s.raise e)

/-- `SKNP Vx` (R214). -/
def execSknp (x : Reg) (s : State) : Outcome :=
  .next
    (match keyOf s.cfg (s.getV x) with
    | .ok k => (s.skipIf (!s.isPressed k)).complete
    | .error e => s.raise e)

/-- `LD Vx, K` (R215): the busy poll. No key rewinds PC so that the next Step runs this instruction again. -/
def execLdVxK (x : Reg) (s : State) : Outcome :=
  .next
    (match s.nextKey with
    | none => (s.rewind.setWm .awaitingKey).complete
    | some k => ((s.setV x (BitVec.ofNat 8 k)).setWm .running).complete)

/-- `LD Vx, DT` (R216). -/
def execLdVxDt (x : Reg) (s : State) : Outcome := .next (s.setV x s.dt).complete

/-- `LD DT, Vx` (R217). -/
def execLdDtVx (x : Reg) (s : State) : Outcome := .next (s.setDt (s.getV x)).complete

/-- `LD ST, Vx` (R218). -/
def execLdStVx (x : Reg) (s : State) : Outcome := .next (s.setSt (s.getV x)).complete

end Sys2Proof.Machine
end

