-- ==== Sys2Proof/Machine/Step.lean ====
section
/-! DEFINITION. One step of the machine, and an instruction placed where the next step fetches. -/

namespace Sys2Proof.Machine

/-- One step: the host's turn and one Step of the engine (spec/40_control_flow.md R120). -/
def step (s : State) : Host.Outcome State Fault Refusal := cycle exec s

/-- `s` with the instruction whose bits are `w` stored at PC, high byte first. Nothing else changes; where PC addresses no whole word (0xFFF and above) no instruction can be placed (log 10). -/
def State.withFetchWord (s : State) (nbits w : Nat) : State := s.pokeWord s.pc.toNat (tableWord nbits w)

end Sys2Proof.Machine
end

