-- ==== Sys2Proof/Machine/Transactions.lean ====
section
/-! DEFINITION. The host's four transactions and the outputs it reads (spec/10_state.md R34, spec/60_exceptions.md R245). -/

namespace Sys2Proof.Machine

/-- What the host performs, one at a time (R34, R240). -/
inductive Transaction where
  | reset
  | loadRom (image : List Byte)
  | step (keys : BitVec 16) (rand : Byte)
  | tick
  deriving DecidableEq, Repr

/-- Writes the bytes of a ROM image at `a`, `a + 1`, … (spec/20_memory.md R72). -/
def Memory.load (c : Config) (m : Memory) (a : Nat) : List Byte → Memory
  | [] => m
  | b :: bs => Memory.load c (Memory.write c m a b) (a + 1) bs

/-- Whether LoadRom accepts an image: 3583 bytes at most (R72, conflict C1). -/
def romFits (image : List Byte) : Bool := decide (image.length < memSize - romBase)

/-- `LoadRom(bytes)` on the state (R72): only memory changes, and nothing where the image is too large. -/
def State.loadRom (image : List Byte) (s : State) : State :=
  if romFits image then s.setMem (Memory.load s.cfg s.mem romBase image) else s

/-- What LoadRom returns to the host (R72); it does not go into `RES` (spec/60_exceptions.md R231). -/
def loadRomResult (image : List Byte) : Result :=
  if romFits image then .ok else .err (.romTooLarge image.length)

/-- `Reset` (spec/70_reset_and_hazards.md R260): every piece of state at its reset value; `cfg` stays, and so do the host's coming inputs, which are not the engine's. -/
def State.resetEngine (s : State) : State :=
  { State.resetWith s.cfg with rand := s.rand, turns := s.turns, turnNo := s.turnNo }

/-- One transaction (R240). -/
def transact (t : Transaction) (s : State) : Outcome :=
  match t with
  | .reset => .next s.resetEngine
  | .loadRom image => .next (s.loadRom image)
  | .step keys rand => engineStep exec keys rand s
  | .tick => .next s.tick

/-- What the host gets back from a transaction that left the state `t` (R245). -/
def reply (tr : Transaction) (t : State) : Option Result :=
  match tr with
  | .reset => none
  | .loadRom image => some (loadRomResult image)
  | .step _ _ => some t.res
  | .tick => none

/-- The output `frame` (spec/43_display.md R194). -/
def State.frame (s : State) : Frame := s.fb

/-- The output `sound_on` (spec/60_exceptions.md R239). -/
def State.soundOn (s : State) : Bool := s.st != 0

/-- The output `awaiting_key` (spec/10_state.md R30). -/
def State.awaiting (s : State) : Bool := s.wm == .awaitingKey

/-- The output `result` (R33). -/
def State.result (s : State) : Result := s.res

end Sys2Proof.Machine
end

