-- ==== Sys2Proof/Safety.lean ====
section
/-! DEFINITION. The terms the claims use: what an instruction keeps, where it stores, what a sprite covers, and the invariants of the engine. -/

namespace Sys2Proof.Safety

open Sys2Proof.Machine

/-- The pieces of state an instruction can write besides `RES` (spec/10_state.md R20); `stack` is `S` with `SP`. -/
inductive Part where
  | v
  | i
  | pc
  | stack
  | dt
  | st
  | fb
  | wm
  | mem
  deriving DecidableEq, Repr

/-- `t` agrees with `s` on every piece of state outside `ps`, memory read byte by byte; the key snapshot, `cfg` and the host's inputs agree always. `RES` is not spoken of. -/
structure KeptExcept (ps : List Part) (s t : State) : Prop where
  v : Part.v ∉ ps → ∀ r : Reg, t.getV r = s.getV r
  i : Part.i ∉ ps → t.i = s.i
  pc : Part.pc ∉ ps → t.pc = s.pc
  stack : Part.stack ∉ ps → t.stack = s.stack ∧ t.sp = s.sp
  dt : Part.dt ∉ ps → t.dt = s.dt
  st : Part.st ∉ ps → t.st = s.st
  fb : Part.fb ∉ ps → t.fb = s.fb
  wm : Part.wm ∉ ps → t.wm = s.wm
  mem : Part.mem ∉ ps → ∀ a : Nat, t.byteAt a = s.byteAt a
  keys : t.keys = s.keys
  cfg : t.cfg = s.cfg
  rand : t.rand = s.rand
  turns : t.turns = s.turns
  turnNo : t.turnNo = s.turnNo

/-- Every general register outside `rs` reads as before. -/
def RegsKeptExcept (rs : List Reg) (s t : State) : Prop := ∀ r : Reg, r ∉ rs → t.getV r = s.getV r

/-- Every byte of memory outside the `n` bytes from `a` on reads as before. -/
def BytesKeptOutside (a n : Nat) (s t : State) : Prop := ∀ b : Nat, (b < a ∨ a + n ≤ b) → t.byteAt b = s.byteAt b

/-- The first failing address of accesses that ascend from `a` and reach past the end of memory (spec/20_memory.md R68): `a` itself, or 4096. -/
def firstBad (a : Nat) : Nat := max a 4096

/-- What a sprite row `b` that starts at column `x0` puts at column `c`: its bit `7 - (c - x0)` where the row covers `c`, else nothing (spec/43_display.md R191). -/
def spriteBit (b : Byte) (x0 c : Nat) : Bool := decide (x0 ≤ c) && decide (c < x0 + 8) && b.getLsbD (7 - (c - x0))

/-- How many of the `n` rows from row `y0` on are drawn: all, or under `clip` those above the bottom edge (R193). -/
def rowsDrawn (c : Config) (y0 n : Nat) : Nat :=
  match c.drawVertical with
  | .wrap => n
  | .clip => min n (32 - y0)

/-- `t`'s frame is `s`'s with the first `n` rows of the sprite at `I` XORed in at column `x0` and row `y0`, rows taken mod 32 (R193). -/
def FrameXored (x0 y0 n : Nat) (s t : State) : Prop :=
  ∀ (r : Fin 32) (c : Fin 64),
    (∀ k : Nat, k < n → (y0 + k) % 32 = r.val →
      Frame.pixel t.fb r c = (Frame.pixel s.fb r c ^^ spriteBit (s.byteAt (s.i.toNat + k)) x0 c.val)) ∧
    ((∀ k : Nat, k < n → (y0 + k) % 32 ≠ r.val) → Frame.pixel t.fb r c = Frame.pixel s.fb r c)

/-- Some lit pixel of `s` lies under a 1 bit of the first `n` rows of the sprite at `I` (R191: it goes from 1 to 0). -/
def SpriteCollides (x0 y0 n : Nat) (s : State) : Prop :=
  ∃ (k : Nat) (r : Fin 32) (c : Fin 64), k < n ∧ (y0 + k) % 32 = r.val ∧ Frame.pixel s.fb r c = true ∧
    spriteBit (s.byteAt (s.i.toNat + k)) x0 c.val = true

/-- Some 1 bit of the first `n` rows of the sprite at `I` lands on the screen. -/
def SpriteVisible (x0 n : Nat) (s : State) : Prop :=
  ∃ (k : Nat) (c : Fin 64), k < n ∧ spriteBit (s.byteAt (s.i.toNat + k)) x0 c.val = true

/-- Which pieces of state an instruction may write (spec/10_state.md R21 to R30, spec/20_memory.md R60); `LD [I], Vx` and `LD Vx, [I]` write `I` only under `cfg.loadstore_increment = x_plus_1`. -/
def writes (c : Config) : Instr → List Part
  | .sys _ => []
  | .cls => [.fb]
  | .ret => [.pc, .stack]
  | .jp _ => [.pc]
  | .call _ => [.pc, .stack]
  | .seImm _ _ => [.pc]
  | .sneImm _ _ => [.pc]
  | .seReg _ _ => [.pc]
  | .ldImm _ _ => [.v]
  | .addImm _ _ => [.v]
  | .ldReg _ _ => [.v]
  | .orReg _ _ => [.v]
  | .andReg _ _ => [.v]
  | .xorReg _ _ => [.v]
  | .addReg _ _ => [.v]
  | .subReg _ _ => [.v]
  | .shr _ _ => [.v]
  | .subnReg _ _ => [.v]
  | .shl _ _ => [.v]
  | .sneReg _ _ => [.pc]
  | .ldI _ => [.i]
  | .jpV0 _ => [.pc]
  | .rnd _ _ => [.v]
  | .drw _ _ _ => [.v, .fb]
  | .skp _ => [.pc]
  | .sknp _ => [.pc]
  | .ldVxDt _ => [.v]
  | .ldVxK _ => [.v, .pc, .wm]
  | .ldDtVx _ => [.dt]
  | .ldStVx _ => [.st]
  | .addI _ => [.v, .i]
  | .ldF _ => [.i]
  | .ldB _ => [.mem]
  | .ldMemVx _ => if c.loadStoreIncrement = .xPlus1 then [.mem, .i] else [.mem]
  | .ldVxMem _ => if c.loadStoreIncrement = .xPlus1 then [.v, .i] else [.v]

/-- The seven operations that write VF as a flag (spec/10_state.md R22). -/
def writesFlag : Instr → Bool
  | .addReg _ _ => true
  | .subReg _ _ => true
  | .subnReg _ _ => true
  | .shr _ _ => true
  | .shl _ _ => true
  | .addI _ => true
  | .drw _ _ _ => true
  | .sys _ => false
  | .cls => false
  | .ret => false
  | .jp _ => false
  | .call _ => false
  | .seImm _ _ => false
  | .sneImm _ _ => false
  | .seReg _ _ => false
  | .ldImm _ _ => false
  | .addImm _ _ => false
  | .ldReg _ _ => false
  | .orReg _ _ => false
  | .andReg _ _ => false
  | .xorReg _ _ => false
  | .sneReg _ _ => false
  | .ldI _ => false
  | .jpV0 _ => false
  | .rnd _ _ => false
  | .skp _ => false
  | .sknp _ => false
  | .ldVxDt _ => false
  | .ldVxK _ => false
  | .ldDtVx _ => false
  | .ldStVx _ => false
  | .ldF _ => false
  | .ldB _ => false
  | .ldMemVx _ => false
  | .ldVxMem _ => false

/-- `i` makes `n` byte accesses at `I`, `I + 1`, … in `s` (spec/20_memory.md R66); an instruction that makes none has no `n`. The rows of DRW are those drawn (D11). -/
def AccessesBytes (i : Instr) (s : State) (n : Nat) : Prop :=
  (∃ x y k, i = .drw x y k ∧ n = rowsDrawn s.cfg ((s.getV y).toNat % 32) k.toNat) ∨ (∃ x, i = .ldB x ∧ n = 3) ∨
  ∃ x, (i = .ldMemVx x ∨ i = .ldVxMem x) ∧ n = x.val + 1

/-- Which instruction can raise an error, its cause in `s`, and the info (spec/60_exceptions.md R230). A MemoryOutOfRange comes of accesses that reach 4096 and names the first failing address (spec/20_memory.md R68, R78). `InvalidKeyIndex` is the spec's own addition (D5: log 17). `UnknownOpcode` is raised by decode and `RomTooLarge` by LoadRom, never by an instruction. -/
def MayRaise (i : Instr) (s : State) : Err → Prop
  | .memoryOutOfRange a =>
    a = BitVec.ofNat 16 (firstBad s.i.toNat) ∧ ∃ n, AccessesBytes i s n ∧ 0 < n ∧ 4096 < s.i.toNat + n
  | .romTooLarge _ => False
  | .invalidFontIndex v => ∃ x, i = .ldF x ∧ v = s.getV x ∧ 16 ≤ v.toNat ∧ s.cfg.fontIndexMode = .fault
  | .stackOverflow => (∃ nnn, i = .call nnn) ∧ s.sp.val = 16
  | .stackUnderflow => i = .ret ∧ s.sp.val = 0
  | .unknownOpcode _ => False
  | .invalidKeyIndex v => ∃ x, (i = .skp x ∨ i = .sknp x) ∧ v = s.getV x ∧ 16 ≤ v.toNat ∧ s.cfg.keyIndexMode = .fault

/-! ### Invariants -/

/-- Memory is in its canonical form (log 6). -/
def MemCanonical (s : State) : Prop := Memory.wf s.cfg s.mem = true

/-- No address the engine jumps to or returns to exceeds what the rules can make: PC is at most `0xFFF + 0xFF` (spec/40_control_flow.md R131), a stack slot at most 0x1000 (R126). -/
def PcBounded (s : State) : Prop := s.pc.toNat ≤ 0x10FE ∧ ∀ k : Fin 16, s.stack[k].toNat ≤ 0x1000

/-- While `WM` is AwaitingKey, the word at PC is a key wait `LD Vx, K` (spec/44_input_timers.md R215, spec/92_eei_decisions.md D23). -/
def WaitsAtKeyWait (s : State) : Prop :=
  s.wm = .awaitingKey → ∃ (w : Word) (x : Reg), s.fetch = .ok w ∧ decode w = .ok (.ldVxK x)

end Sys2Proof.Safety
end

