-- ==== Sys2Proof/Certificates/Slice0/Obligations.lean ====
section
/-! DEFINITION. The statements for the provers, each with the rule of spec/ it formalises. Every statement over `exec` is about the state after the fetch: PC is already `a + 2` (spec/40_control_flow.md R121). -/

open Sys2Proof Sys2Proof.Machine Sys2Proof.Safety

/-! ### Encoding -/

/-- Decoding the encoding of any well-formed instruction gives it back (R92, R94, R95; most patterns are the spec's general knowledge, log 5). -/
def Obligations.DecodeOfEncode : Prop :=
  ∀ i : Instr, i.wellFormed = true → decode (encode i) = .ok i

/-- Every word that decodes has one meaning: the instruction is well formed and its encoding is the word (R94, R95, R97). For families 5 and 9 this is a choice, the spec's decision D13 (log 13): a decoder that ignored `N` there would drop it. Most patterns are the spec's general knowledge (log 5). -/
def Obligations.EncodeOfDecode : Prop :=
  ∀ (w : Word) (i : Instr), decode w = .ok i → i.wellFormed = true ∧ encode i = w

/-- The illegal words are exactly those of the table of R96 (for families 5 and 9 the spec's decision D13, log 13; most patterns are the spec's general knowledge, log 5). -/
def Obligations.IllegalWordsAreRejected : Prop :=
  ∀ w : Word, decode w = .error (.unknownOpcode w) ↔
    ((w.toNat / 4096 = 0x5 ∧ w.toNat % 16 ≠ 0) ∨
     (w.toNat / 4096 = 0x8 ∧ w.toNat % 16 ∈ [0x8, 0x9, 0xA, 0xB, 0xC, 0xD, 0xF]) ∨
     (w.toNat / 4096 = 0x9 ∧ w.toNat % 16 ≠ 0) ∨
     (w.toNat / 4096 = 0xE ∧ w.toNat % 256 ∉ [0x9E, 0xA1]) ∨
     (w.toNat / 4096 = 0xF ∧ w.toNat % 256 ∉ [0x07, 0x0A, 0x15, 0x18, 0x1E, 0x29, 0x33, 0x55, 0x65]))

/-- One word of each of the sixteen families (values of the high nibble, R91), written out from the patterns of R95, decodes to its operation. All these patterns but those of CLS, `LD Vx, kk` and the place of the `8XY_` nibble are the spec's general knowledge (PRESUMED, log 5). -/
def Obligations.SampleWordsDecode : Prop :=
  decode 0b0000000011100000#16 = .ok .cls ∧
  decode 0b0001001000110100#16 = .ok (.jp 0x234) ∧
  decode 0b0010001100010010#16 = .ok (.call 0x312) ∧
  decode 0b0011010100010010#16 = .ok (.seImm 5 0x12) ∧
  decode 0b0100101011110001#16 = .ok (.sneImm 10 0xF1) ∧
  decode 0b0101000100100000#16 = .ok (.seReg 1 2) ∧
  decode 0b0110101000111100#16 = .ok (.ldImm 10 0x3C) ∧
  decode 0b0111000111111110#16 = .ok (.addImm 1 0xFE) ∧
  decode 0b1000000100100100#16 = .ok (.addReg 1 2) ∧
  decode 0b1001001000010000#16 = .ok (.sneReg 2 1) ∧
  decode 0b1010001100000001#16 = .ok (.ldI 0x301) ∧
  decode 0b1011001100000010#16 = .ok (.jpV0 0x302) ∧
  decode 0b1100001100001111#16 = .ok (.rnd 3 0x0F) ∧
  decode 0b1101000100100101#16 = .ok (.drw 1 2 5) ∧
  decode 0b1110010110011110#16 = .ok (.skp 5) ∧
  decode 0b1111001100110011#16 = .ok (.ldB 3)

/-! ### Step -/

/-- Where the two bytes at PC decode to `i`, a Step is `exec i` with K and rand taken and PC advanced by 2 (R120), and the model's step is the same after the Ticks of the host's turn, with that turn taken off the list (log 8, 9). -/
def Obligations.StepRunsDecodedInstruction : Prop :=
  ∀ (s : State) (i : Instr), s.pc.toNat < 4095 →
    decode (s.byteAt s.pc.toNat ++ s.byteAt (s.pc.toNat + 1)) = .ok i →
    (∀ (keys : BitVec 16) (rand : Byte),
      transact (.step keys rand) s = exec i { s with keys := keys, rand := rand, pc := s.pc + 2 }) ∧
    step s = exec i
      { s with
        keys := s.nextTurn.keys
        rand := s.nextTurn.rand
        pc := s.pc + 2
        dt := BitVec.ofNat 8 (s.dt.toNat - s.nextTurn.ticks)
        st := BitVec.ofNat 8 (s.st.toNat - s.nextTurn.ticks)
        turns := s.turns.tail
        turnNo := s.turnNo + 1 }

/-- A fetch at 0xFFF or above raises MemoryOutOfRange of the first failing byte, leaves PC, and writes nothing but K and RES (R121; the reported address is the spec's decision D27, the snapshot D26). -/
def Obligations.FetchPastEndRaises : Prop :=
  ∀ (s : State) (keys : BitVec 16) (rand : Byte), 0xFFF ≤ s.pc.toNat →
    transact (.step keys rand) s = .next
      { s with
        keys := keys
        rand := rand
        res := .err (.memoryOutOfRange (if 4096 ≤ s.pc.toNat then s.pc else 0x1000)) }

/-- A Step on an illegal word raises UnknownOpcode of the word with PC advanced, and writes nothing else but K (R96, R232; the committed prefix is the spec's decision D3). -/
def Obligations.IllegalWordRaises : Prop :=
  ∀ (s : State) (keys : BitVec 16) (rand : Byte) (w : Word), s.pc.toNat < 4095 →
    w = s.byteAt s.pc.toNat ++ s.byteAt (s.pc.toNat + 1) → decode w = .error (.unknownOpcode w) →
    transact (.step keys rand) s = .next
      { s with keys := keys, rand := rand, pc := s.pc + 2, res := .err (.unknownOpcode w) }

/-- The engine never halts: every step and every transaction answers a next state, an error included (R235; an error is a next state: log 7). -/
def Obligations.EngineNeverHalts : Prop :=
  (∀ s : State, ∃ t, step s = .next t) ∧ ∀ (tr : Transaction) (s : State), ∃ t, transact tr s = .next t

/-- An instruction ends with Ok or with one of the errors R230 lists for it, with its cause in `s` and the info R230 records; a MemoryOutOfRange names the first failing address (R68, R78; D29, and D11 for the rows of DRW). `InvalidKeyIndex` is the spec's own addition (D5, log 17), and so are the modes of both index errors (D5, D6). -/
def Obligations.ErrorsComeFromTheirInstructions : Prop :=
  ∀ (i : Instr) (s t : State) (e : Err), exec i s = .next t → t.res = .err e → MayRaise i s e

/-- A Step that fails leaves WM, DT and ST (R232, its last sentence; the state after an error is the spec's decision D3, log 7), whatever the error. -/
def Obligations.FailingStepKeepsWaitModeAndTimers : Prop :=
  ∀ (s t : State) (keys : BitVec 16) (rand : Byte), transact (.step keys rand) s = .next t → t.res ≠ .ok →
    t.wm = s.wm ∧ t.dt = s.dt ∧ t.st = s.st

/-- Each instruction writes only the pieces of state its rule names: the frame of the whole instruction set (R21 to R30, R60). -/
def Obligations.InstructionsWriteOnlyTheirParts : Prop :=
  ∀ (i : Instr) (s t : State), exec i s = .next t → KeptExcept (writes s.cfg i) s t

/-- The seven flag-writing operations leave VF exactly 0 or 1 whenever they complete (R22). For `ADD I, Vx` this is the spec's decision D9, and for `X = F` its decision D12 that the flag is written last (log 16): both are choices. -/
def Obligations.FlagIsZeroOrOne : Prop :=
  ∀ (i : Instr) (s t : State), writesFlag i = true → exec i s = .next t → t.res = .ok →
    t.getV vF = 0 ∨ t.getV vF = 1

/-- Every operation but RND ignores the random byte (R122). That the byte is an input of the Step is the spec's decision D25, and its place in State the model's choice (log 8). -/
def Obligations.OnlyRndReadsRand : Prop :=
  ∀ (i : Instr) (s t : State) (r : Byte), (∀ (x : Reg) (kk : Byte), i ≠ .rnd x kk) → exec i s = .next t →
    exec i { s with rand := r } = .next { t with rand := r }

/-- WM does not change how an instruction executes (R30, the spec's decision D23, log 19): from a state that differs in WM alone, the next state differs at most in WM. -/
def Obligations.WaitModeDoesNotSteer : Prop :=
  ∀ (i : Instr) (s t : State) (m : WaitMode), exec i s = .next t →
    ∃ t' : State, exec i { s with wm := m } = .next t' ∧ { t' with wm := t.wm } = t

/-! ### Control flow -/

/-- `SYS nnn` completes and changes nothing (R123). -/
def Obligations.SysIsNoOp : Prop :=
  ∀ (nnn : Addr12) (s : State), ∃ t, exec (.sys nnn) s = .next t ∧ t.res = .ok ∧ KeptExcept [] s t

/-- `JP nnn` sets PC to the address (R125). -/
def Obligations.JumpSetsPc : Prop :=
  ∀ (nnn : Addr12) (s : State), ∃ t, exec (.jp nnn) s = .next t ∧ t.res = .ok ∧
    t.pc.toNat = nnn.toNat ∧ KeptExcept [.pc] s t

/-- `JP V0, nnn` adds V0, or under `cfg.jump_offset = vx` the register `NNN[11:8]`; the sum never wraps (R131; the quirk is the spec's decision D8). -/
def Obligations.JumpWithOffsetAddsRegister : Prop :=
  ∀ (nnn : Addr12) (s : State) (r : Reg),
    r.val = (if s.cfg.jumpOffset = .vx then nnn.toNat / 256 else 0) →
    ∃ t, exec (.jpV0 nnn) s = .next t ∧ t.res = .ok ∧
      t.pc.toNat = nnn.toNat + (s.getV r).toNat ∧ KeptExcept [.pc] s t

/-- `RET` pops the return address into PC; on an empty stack it raises StackUnderflow and PC stays (R124, R26). -/
def Obligations.ReturnPops : Prop :=
  ∀ s : State,
    (∀ k : Fin 16, s.sp.val = k.val + 1 →
      ∃ t, exec .ret s = .next t ∧ t.res = .ok ∧ t.pc = s.stack[k] ∧ t.sp.val = k.val ∧ t.stack = s.stack ∧
        KeptExcept [.pc, .stack] s t) ∧
    (s.sp.val = 0 → ∃ t, exec .ret s = .next t ∧ t.res = .err .stackUnderflow ∧ KeptExcept [] s t)

/-- `CALL nnn` pushes PC and jumps; on a full stack it raises StackOverflow and PC stays (R126, R26). -/
def Obligations.CallPushes : Prop :=
  ∀ (nnn : Addr12) (s : State),
    (∀ k : Fin 16, s.sp.val = k.val →
      ∃ t, exec (.call nnn) s = .next t ∧ t.res = .ok ∧ t.pc.toNat = nnn.toNat ∧ t.sp.val = k.val + 1 ∧
        t.stack[k] = s.pc ∧ (∀ j : Fin 16, j ≠ k → t.stack[j] = s.stack[j]) ∧ KeptExcept [.pc, .stack] s t) ∧
    (s.sp.val = 16 → ∃ t, exec (.call nnn) s = .next t ∧ t.res = .err .stackOverflow ∧ KeptExcept [] s t)

/-- A RET right after a CALL goes back to the instruction after the CALL with the stack as deep as before (R26, R124, R126). -/
def Obligations.ReturnUndoesCall : Prop :=
  ∀ (nnn : Addr12) (s : State), s.sp.val < 16 →
    ∃ t u, exec (.call nnn) s = .next t ∧ exec .ret t = .next u ∧ u.res = .ok ∧ u.pc = s.pc ∧ u.sp = s.sp ∧
      ∀ j : Fin 16, j.val < s.sp.val → u.stack[j] = s.stack[j]

/-- The four register and immediate skips add 2 to PC, mod 2^16, exactly when their condition holds (R127, R128, R129, R130). -/
def Obligations.SkipsAddTwoWhenTaken : Prop :=
  ∀ (x y : Reg) (kk : Byte) (s : State),
    (∃ t, exec (.seImm x kk) s = .next t ∧ t.res = .ok ∧
      t.pc.toNat = (if s.getV x = kk then (s.pc.toNat + 2) % 65536 else s.pc.toNat) ∧ KeptExcept [.pc] s t) ∧
    (∃ t, exec (.sneImm x kk) s = .next t ∧ t.res = .ok ∧
      t.pc.toNat = (if s.getV x = kk then s.pc.toNat else (s.pc.toNat + 2) % 65536) ∧ KeptExcept [.pc] s t) ∧
    (∃ t, exec (.seReg x y) s = .next t ∧ t.res = .ok ∧
      t.pc.toNat = (if s.getV x = s.getV y then (s.pc.toNat + 2) % 65536 else s.pc.toNat) ∧ KeptExcept [.pc] s t) ∧
    (∃ t, exec (.sneReg x y) s = .next t ∧ t.res = .ok ∧
      t.pc.toNat = (if s.getV x = s.getV y then s.pc.toNat else (s.pc.toNat + 2) % 65536) ∧ KeptExcept [.pc] s t)

/-! ### Loads, arithmetic and random -/

/-- `LD Vx, kk` writes the byte to `V[X]` and nothing else (R142). -/
def Obligations.LoadImmediate : Prop :=
  ∀ (x : Reg) (kk : Byte) (s : State), ∃ t, exec (.ldImm x kk) s = .next t ∧ t.res = .ok ∧
    t.getV x = kk ∧ RegsKeptExcept [x] s t ∧ KeptExcept [.v] s t

/-- `ADD Vx, kk` adds mod 256 and has no flag (R143). -/
def Obligations.AddImmediateWrapsWithoutFlag : Prop :=
  ∀ (x : Reg) (kk : Byte) (s : State), ∃ t, exec (.addImm x kk) s = .next t ∧ t.res = .ok ∧
    (t.getV x).toNat = ((s.getV x).toNat + kk.toNat) % 256 ∧ RegsKeptExcept [x] s t ∧ KeptExcept [.v] s t

/-- `LD Vx, Vy` copies the register and has no flag (R144; that the ninth `8XY_` operation is the copy is the spec's general knowledge, log 5). -/
def Obligations.CopyRegister : Prop :=
  ∀ (x y : Reg) (s : State), ∃ t, exec (.ldReg x y) s = .next t ∧ t.res = .ok ∧
    t.getV x = s.getV y ∧ RegsKeptExcept [x] s t ∧ KeptExcept [.v] s t

/-- OR, AND and XOR combine bit by bit, without a flag (R145, R146, R147). -/
def Obligations.LogicWithoutFlag : Prop :=
  ∀ (x y : Reg) (s : State),
    (∃ t, exec (.orReg x y) s = .next t ∧ t.res = .ok ∧
      (∀ k, (t.getV x).getLsbD k = ((s.getV x).getLsbD k || (s.getV y).getLsbD k)) ∧
      RegsKeptExcept [x] s t ∧ KeptExcept [.v] s t) ∧
    (∃ t, exec (.andReg x y) s = .next t ∧ t.res = .ok ∧
      (∀ k, (t.getV x).getLsbD k = ((s.getV x).getLsbD k && (s.getV y).getLsbD k)) ∧
      RegsKeptExcept [x] s t ∧ KeptExcept [.v] s t) ∧
    (∃ t, exec (.xorReg x y) s = .next t ∧ t.res = .ok ∧
      (∀ k, (t.getV x).getLsbD k = ((s.getV x).getLsbD k ^^ (s.getV y).getLsbD k)) ∧
      RegsKeptExcept [x] s t ∧ KeptExcept [.v] s t)

/-- `ADD Vx, Vy`: the sum mod 256, and VF the carry (R148); with `X = F` only the carry stays (the spec's decision D12). -/
def Obligations.AddRegistersWithCarry : Prop :=
  ∀ (x y : Reg) (s : State), ∃ t, exec (.addReg x y) s = .next t ∧ t.res = .ok ∧
    (x ≠ vF → (t.getV x).toNat = ((s.getV x).toNat + (s.getV y).toNat) % 256) ∧
    (t.getV vF).toNat = (if (s.getV x).toNat + (s.getV y).toNat > 255 then 1 else 0) ∧
    RegsKeptExcept [x, vF] s t ∧ KeptExcept [.v] s t

/-- SUB and SUBN: the difference mod 256, and VF is 1 exactly when no borrow occurred (R149, R151); with `X = F` only the flag stays (D12). -/
def Obligations.SubtractWithNotBorrow : Prop :=
  ∀ (x y : Reg) (s : State),
    (∃ t, exec (.subReg x y) s = .next t ∧ t.res = .ok ∧
      (x ≠ vF → (t.getV x).toNat = ((s.getV x).toNat + 256 - (s.getV y).toNat) % 256) ∧
      (t.getV vF).toNat = (if (s.getV x).toNat ≥ (s.getV y).toNat then 1 else 0) ∧
      RegsKeptExcept [x, vF] s t ∧ KeptExcept [.v] s t) ∧
    (∃ t, exec (.subnReg x y) s = .next t ∧ t.res = .ok ∧
      (x ≠ vF → (t.getV x).toNat = ((s.getV y).toNat + 256 - (s.getV x).toNat) % 256) ∧
      (t.getV vF).toNat = (if (s.getV y).toNat ≥ (s.getV x).toNat then 1 else 0) ∧
      RegsKeptExcept [x, vF] s t ∧ KeptExcept [.v] s t)

/-- SHR and SHL shift the register of `cfg.shift_source` by one bit into `V[X]`, and VF is the bit shifted out (R150, R152; the quirk is the spec's decision D7, `X = F` D12). -/
def Obligations.ShiftsMoveBitToFlag : Prop :=
  ∀ (x y r : Reg) (s : State), r = (if s.cfg.shiftSource = .vx then x else y) →
    (∃ t, exec (.shr x y) s = .next t ∧ t.res = .ok ∧
      (x ≠ vF → (t.getV x).toNat = (s.getV r).toNat / 2) ∧ (t.getV vF).toNat = (s.getV r).toNat % 2 ∧
      RegsKeptExcept [x, vF] s t ∧ KeptExcept [.v] s t) ∧
    (∃ t, exec (.shl x y) s = .next t ∧ t.res = .ok ∧
      (x ≠ vF → (t.getV x).toNat = (s.getV r).toNat * 2 % 256) ∧ (t.getV vF).toNat = (s.getV r).toNat / 128 ∧
      RegsKeptExcept [x, vF] s t ∧ KeptExcept [.v] s t)

/-- `RND Vx, kk`: the Step's random byte, whatever it is, masked (R153). That the byte is an input of the Step is the spec's decision D25, and its place in State the model's choice (log 8). -/
def Obligations.RandomByteIsMasked : Prop :=
  ∀ (x : Reg) (kk : Byte) (s : State), ∃ t, exec (.rnd x kk) s = .next t ∧ t.res = .ok ∧
    (∀ k, (t.getV x).getLsbD k = (s.rand.getLsbD k && kk.getLsbD k)) ∧
    RegsKeptExcept [x] s t ∧ KeptExcept [.v] s t

/-! ### Index register and memory -/

/-- `LD I, nnn` zero-extends the address into I (R170). -/
def Obligations.LoadIndex : Prop :=
  ∀ (nnn : Addr12) (s : State), ∃ t, exec (.ldI nnn) s = .next t ∧ t.res = .ok ∧
    t.i.toNat = nnn.toNat ∧ KeptExcept [.i] s t

/-- `ADD I, Vx`: the sum mod 2^16, and VF by the overflow test of `cfg.index_overflow`, written in both cases (R171; the test is the spec's decision D9, the wrap D17). -/
def Obligations.AddToIndexWithOverflowFlag : Prop :=
  ∀ (x : Reg) (s : State) (sum : Nat), sum = s.i.toNat + (s.getV x).toNat →
    ∃ t, exec (.addI x) s = .next t ∧ t.res = .ok ∧ t.i.toNat = sum % 65536 ∧
      (s.cfg.indexOverflow = .ceiling12 → (t.getV vF).toNat = (if sum > 0x0FFF then 1 else 0)) ∧
      (s.cfg.indexOverflow = .bit3 → (t.getV vF).toNat = (sum % 65536) / 8 % 2) ∧
      RegsKeptExcept [vF] s t ∧ KeptExcept [.v, .i] s t

/-- `LD F, Vx`: the glyph's address, the digit taken mod 16 under `mask`; under `fault` an index of 16 or more raises InvalidFontIndex and I stays (R71, R172; the mode is the spec's decision D6). -/
def Obligations.LoadFontAddress : Prop :=
  ∀ (x : Reg) (s : State),
    (((s.getV x).toNat < 16 ∨ s.cfg.fontIndexMode = .mask) →
      ∃ t, exec (.ldF x) s = .next t ∧ t.res = .ok ∧
        t.i.toNat = 0x050 + 5 * ((s.getV x).toNat % 16) ∧ KeptExcept [.i] s t) ∧
    (16 ≤ (s.getV x).toNat → s.cfg.fontIndexMode = .fault →
      ∃ t, exec (.ldF x) s = .next t ∧ t.res = .err (.invalidFontIndex (s.getV x)) ∧ KeptExcept [] s t)

/-- `LD B, Vx` with all three addresses in range: hundreds, tens, units at I, I+1, I+2, and I stays (R173). -/
def Obligations.StoreBcdDigits : Prop :=
  ∀ (x : Reg) (s : State), s.i.toNat + 2 < 4096 →
    ∃ t, exec (.ldB x) s = .next t ∧ t.res = .ok ∧
      (t.byteAt s.i.toNat).toNat = (s.getV x).toNat / 100 ∧
      (t.byteAt (s.i.toNat + 1)).toNat = (s.getV x).toNat / 10 % 10 ∧
      (t.byteAt (s.i.toNat + 2)).toNat = (s.getV x).toNat % 10 ∧
      BytesKeptOutside s.i.toNat 3 s t ∧ KeptExcept [.mem] s t

/-- `LD B, Vx` past the end of memory: the digits in range are stored, the first failing address is reported (R173, R232; the committed prefix is the spec's decision D3, D29). -/
def Obligations.StoreBcdPastEnd : Prop :=
  ∀ (x : Reg) (s : State), 4096 ≤ s.i.toNat + 2 →
    ∃ t, exec (.ldB x) s = .next t ∧
      t.res = .err (.memoryOutOfRange (BitVec.ofNat 16 (firstBad s.i.toNat))) ∧
      (s.i.toNat < 4096 → (t.byteAt s.i.toNat).toNat = (s.getV x).toNat / 100) ∧
      (s.i.toNat + 1 < 4096 → (t.byteAt (s.i.toNat + 1)).toNat = (s.getV x).toNat / 10 % 10) ∧
      BytesKeptOutside s.i.toNat (4096 - s.i.toNat) s t ∧ KeptExcept [.mem] s t

/-- `LD [I], Vx` in range: V0 to VX at I, I+1, …, and I advanced by X+1 only under `x_plus_1` (R174; the quirk is the spec's decision D10). -/
def Obligations.StoreRegisters : Prop :=
  ∀ (x : Reg) (s : State), s.i.toNat + x.val < 4096 →
    ∃ t, exec (.ldMemVx x) s = .next t ∧ t.res = .ok ∧
      (∀ k : Reg, k.val ≤ x.val → t.byteAt (s.i.toNat + k.val) = s.getV k) ∧
      t.i.toNat = (if s.cfg.loadStoreIncrement = .xPlus1 then s.i.toNat + x.val + 1 else s.i.toNat) ∧
      BytesKeptOutside s.i.toNat (x.val + 1) s t ∧ KeptExcept [.mem, .i] s t

/-- `LD [I], Vx` past the end of memory: the registers in range are stored, I is not advanced, the first failing address is reported (R174, R232; D3, D29). -/
def Obligations.StoreRegistersPastEnd : Prop :=
  ∀ (x : Reg) (s : State), 4096 ≤ s.i.toNat + x.val →
    ∃ t, exec (.ldMemVx x) s = .next t ∧
      t.res = .err (.memoryOutOfRange (BitVec.ofNat 16 (firstBad s.i.toNat))) ∧
      (∀ k : Reg, s.i.toNat + k.val < 4096 → t.byteAt (s.i.toNat + k.val) = s.getV k) ∧
      BytesKeptOutside s.i.toNat (4096 - s.i.toNat) s t ∧ KeptExcept [.mem] s t

/-- `LD Vx, [I]` in range: V0 to VX from I, I+1, …, and I advanced by X+1 only under `x_plus_1` (R175; D10). -/
def Obligations.LoadRegisters : Prop :=
  ∀ (x : Reg) (s : State), s.i.toNat + x.val < 4096 →
    ∃ t, exec (.ldVxMem x) s = .next t ∧ t.res = .ok ∧
      (∀ k : Reg, k.val ≤ x.val → t.getV k = s.byteAt (s.i.toNat + k.val)) ∧
      (∀ k : Reg, x.val < k.val → t.getV k = s.getV k) ∧
      t.i.toNat = (if s.cfg.loadStoreIncrement = .xPlus1 then s.i.toNat + x.val + 1 else s.i.toNat) ∧
      KeptExcept [.v, .i] s t

/-- `LD Vx, [I]` past the end of memory: the registers in range are loaded, the others and I stay, the first failing address is reported (R175, R232; D3, D29). -/
def Obligations.LoadRegistersPastEnd : Prop :=
  ∀ (x : Reg) (s : State), 4096 ≤ s.i.toNat + x.val →
    ∃ t, exec (.ldVxMem x) s = .next t ∧
      t.res = .err (.memoryOutOfRange (BitVec.ofNat 16 (firstBad s.i.toNat))) ∧
      (∀ k : Reg, s.i.toNat + k.val < 4096 → t.getV k = s.byteAt (s.i.toNat + k.val)) ∧
      (∀ k : Reg, 4096 ≤ s.i.toNat + k.val → t.getV k = s.getV k) ∧ KeptExcept [.v] s t

/-- A store over the next instruction is what the next fetch reads, the byte at the lower address the more significant (R64, R76). -/
def Obligations.FetchSeesStore : Prop :=
  ∀ (x : Reg) (s : State), s.i = s.pc → 1 ≤ x.val → s.i.toNat + x.val < 4096 →
    ∃ t, exec (.ldMemVx x) s = .next t ∧
      ∃ w : Word, t.fetch = .ok w ∧ w.toNat = (s.getV 0).toNat * 256 + (s.getV 1).toNat

/-! ### Display -/

/-- `CLS` makes every pixel 0 and writes nothing else (R190, R192). -/
def Obligations.ClearScreen : Prop :=
  ∀ s : State, ∃ t, exec .cls s = .next t ∧ t.res = .ok ∧
    (∀ (r : Fin 32) (c : Fin 64), Frame.pixel t.fb r c = false) ∧ KeptExcept [.fb] s t

/-- `draw_byte`: the row `y mod 32` is XORed with the sprite byte from column `x mod 64` on, clipped at the right edge; every other pixel stays; it collides exactly when a lit pixel lies under a 1 bit (R191). -/
def Obligations.DrawByteXorsOneRow : Prop :=
  ∀ (b : Byte) (x y : Nat) (f : Frame),
    (∀ (r : Fin 32) (c : Fin 64), Frame.pixel (drawByte b x y f).2 r c =
      (Frame.pixel f r c ^^ (decide (r.val = y % 32) && spriteBit b (x % 64) c.val))) ∧
    ((drawByte b x y f).1 = true ↔
      ∃ (r : Fin 32) (c : Fin 64), r.val = y % 32 ∧ Frame.pixel f r c = true ∧ spriteBit b (x % 64) c.val = true)

/-- `DRW Vx, Vy, n` with every drawn row's byte in range: the rows are XORed in and VF is the collision over all rows (R193; the bottom edge is the spec's decision D11, the order D12). -/
def Obligations.DrawXorsSprite : Prop :=
  ∀ (x y : Reg) (n : Nibble) (s : State) (x0 y0 m : Nat), x0 = (s.getV x).toNat % 64 → y0 = (s.getV y).toNat % 32 →
    m = rowsDrawn s.cfg y0 n.toNat → (m = 0 ∨ s.i.toNat + m ≤ 4096) →
    ∃ t, exec (.drw x y n) s = .next t ∧ t.res = .ok ∧ FrameXored x0 y0 m s t ∧
      (t.getV vF = 0 ∨ t.getV vF = 1) ∧ (t.getV vF = 1 ↔ SpriteCollides x0 y0 m s) ∧
      RegsKeptExcept [vF] s t ∧ KeptExcept [.v, .fb] s t

/-- `DRW Vx, Vy, n` past the end of memory: the rows in range stay drawn, VF is not written, the first failing address is reported (R193, R232; D3, D11, D29). -/
def Obligations.DrawPastEnd : Prop :=
  ∀ (x y : Reg) (n : Nibble) (s : State) (x0 y0 m : Nat), x0 = (s.getV x).toNat % 64 → y0 = (s.getV y).toNat % 32 →
    m = rowsDrawn s.cfg y0 n.toNat → 0 < m → 4096 < s.i.toNat + m →
    ∃ t, exec (.drw x y n) s = .next t ∧
      t.res = .err (.memoryOutOfRange (BitVec.ofNat 16 (firstBad s.i.toNat))) ∧
      FrameXored x0 y0 (4096 - s.i.toNat) s t ∧ KeptExcept [.fb] s t

/-- A second identical draw restores every pixel; over a screen blank before the first, its collision flag is 1 exactly when a 1 bit of the sprite lands on the screen (R191, R193; conflict C2; the bottom edge is the spec's decision D11). VF is no coordinate here, since the first draw writes it. -/
def Obligations.DrawTwiceRestores : Prop :=
  ∀ (x y : Reg) (n : Nibble) (s : State) (x0 y0 m : Nat), x ≠ vF → y ≠ vF →
    x0 = (s.getV x).toNat % 64 → y0 = (s.getV y).toNat % 32 →
    m = rowsDrawn s.cfg y0 n.toNat → (m = 0 ∨ s.i.toNat + m ≤ 4096) →
    ∃ t u, exec (.drw x y n) s = .next t ∧ exec (.drw x y n) t = .next u ∧ u.res = .ok ∧
      (∀ (r : Fin 32) (c : Fin 64), Frame.pixel u.fb r c = Frame.pixel s.fb r c) ∧
      ((∀ (r : Fin 32) (c : Fin 64), Frame.pixel s.fb r c = false) → (u.getV vF = 1 ↔ SpriteVisible x0 m s))

/-! ### Input and timers -/

/-- SKP and SKNP test the key of `V[X]` in the snapshot, mod 16 under `mask`; under `fault` a key of 16 or more raises InvalidKeyIndex and does not skip (R211, R213, R214; the mode and the error are the spec's decision D5). -/
def Obligations.KeySkips : Prop :=
  ∀ (x : Reg) (s : State),
    (((s.getV x).toNat < 16 ∨ s.cfg.keyIndexMode = .mask) →
      (∃ t, exec (.skp x) s = .next t ∧ t.res = .ok ∧
        t.pc.toNat = (if s.keys.getLsbD ((s.getV x).toNat % 16) then (s.pc.toNat + 2) % 65536 else s.pc.toNat) ∧
        KeptExcept [.pc] s t) ∧
      (∃ t, exec (.sknp x) s = .next t ∧ t.res = .ok ∧
        t.pc.toNat = (if s.keys.getLsbD ((s.getV x).toNat % 16) then s.pc.toNat else (s.pc.toNat + 2) % 65536) ∧
        KeptExcept [.pc] s t)) ∧
    (16 ≤ (s.getV x).toNat → s.cfg.keyIndexMode = .fault →
      (∃ t, exec (.skp x) s = .next t ∧ t.res = .err (.invalidKeyIndex (s.getV x)) ∧ KeptExcept [] s t) ∧
      (∃ t, exec (.sknp x) s = .next t ∧ t.res = .err (.invalidKeyIndex (s.getV x)) ∧ KeptExcept [] s t))

/-- `LD Vx, K`: without a key PC goes back by 2 and WM is AwaitingKey; with keys down the least goes to `V[X]` and WM is Running (R212, R215; WM is the spec's decision D23). -/
def Obligations.KeyWaitPolls : Prop :=
  ∀ (x : Reg) (s : State),
    (s.keys = 0 →
      ∃ t, exec (.ldVxK x) s = .next t ∧ t.res = .ok ∧ t.pc = s.pc - 2 ∧ t.wm = .awaitingKey ∧
        KeptExcept [.pc, .wm] s t) ∧
    (∀ k : Nat, s.keys.getLsbD k = true → (∀ j : Nat, j < k → s.keys.getLsbD j = false) →
      ∃ t, exec (.ldVxK x) s = .next t ∧ t.res = .ok ∧ (t.getV x).toNat = k ∧ t.wm = .running ∧
        RegsKeptExcept [x] s t ∧ KeptExcept [.v, .wm] s t)

/-- The timer copies: `LD Vx, DT`, `LD DT, Vx`, `LD ST, Vx` (R216, R217, R218). -/
def Obligations.TimerCopies : Prop :=
  ∀ (x : Reg) (s : State),
    (∃ t, exec (.ldVxDt x) s = .next t ∧ t.res = .ok ∧ t.getV x = s.dt ∧ RegsKeptExcept [x] s t ∧ KeptExcept [.v] s t) ∧
    (∃ t, exec (.ldDtVx x) s = .next t ∧ t.res = .ok ∧ t.dt = s.getV x ∧ KeptExcept [.dt] s t) ∧
    (∃ t, exec (.ldStVx x) s = .next t ∧ t.res = .ok ∧ t.st = s.getV x ∧ t.soundOn = decide (s.getV x ≠ 0) ∧
      KeptExcept [.st] s t)

/-! ### The host's other transactions -/

/-- A Tick takes one from each timer, floor at zero, and changes nothing else (R238). -/
def Obligations.TickCountsDown : Prop :=
  ∀ s : State, ∃ t, transact .tick s = .next t ∧ t.dt.toNat = s.dt.toNat - 1 ∧ t.st.toNat = s.st.toNat - 1 ∧
    t.res = s.res ∧ KeptExcept [.dt, .st] s t

/-- LoadRom of at most 3583 bytes puts them at 0x200 and changes nothing else; a longer image changes nothing and is answered RomTooLarge (R72). -/
def Obligations.LoadRomCopiesImage : Prop :=
  ∀ (image : List Byte) (s : State),
    (image.length ≤ 3583 →
      ∃ t, transact (.loadRom image) s = .next t ∧ reply (.loadRom image) t = some .ok ∧
        (∀ (k : Nat) (h : k < image.length), t.byteAt (0x200 + k) = image[k]) ∧
        BytesKeptOutside 0x200 image.length s t ∧ t.res = s.res ∧ KeptExcept [.mem] s t) ∧
    (3584 ≤ image.length →
      transact (.loadRom image) s = .next s ∧
        reply (.loadRom image) s = some (.err (.romTooLarge image.length)))

/-- Reset leaves PC at 0x200, an empty stack, stopped timers, the font in place and everything else 0 or Running or Ok, and keeps `cfg` (R36, R260; the values but PC, SP, the timers and the font's place are the spec's decision D14, D4). -/
def Obligations.ResetLeavesResetState : Prop :=
  ∀ s : State, ∃ t, transact .reset s = .next t ∧ t.pc = 0x200 ∧ t.sp.val = 0 ∧ t.dt = 0 ∧ t.st = 0 ∧
    (∀ k : Fin 80, t.byteAt (0x050 + k.val) = s.cfg.fontTable[k]) ∧
    (∀ a : Nat, (a < 0x050 ∨ 0x0A0 ≤ a) → t.byteAt a = 0) ∧
    (∀ r : Reg, t.getV r = 0) ∧ t.i = 0 ∧ (∀ k : Fin 16, t.stack[k] = 0) ∧
    (∀ (r : Fin 32) (c : Fin 64), Frame.pixel t.fb r c = false) ∧ t.keys = 0 ∧ t.wm = .running ∧ t.res = .ok ∧
    t.cfg = s.cfg

/-! ### Invariants -/

/-- Every step and every transaction keeps memory in its canonical form (log 6). -/
def Obligations.MemoryStaysCanonical : Prop :=
  ∀ s t : State, MemCanonical s →
    (step s = .next t → MemCanonical t) ∧ ∀ tr : Transaction, transact tr s = .next t → MemCanonical t

/-- Every step keeps PC at 0x10FE or below and every stack slot at 0x1000 or below, so no PC write wraps (R24, R131; that Reset leaves the slots 0 is the spec's decision D14, log 3). -/
def Obligations.PcStaysBounded : Prop :=
  ∀ s t : State, PcBounded s →
    (step s = .next t → PcBounded t) ∧ ∀ tr : Transaction, transact tr s = .next t → PcBounded t

/-- Every step keeps this: while WM is AwaitingKey the instruction at PC is the key wait itself, so the wait ends only by taking a key (R215; D23: "no such route exists, since the waiting instruction is re-executed until it takes a key"). -/
def Obligations.KeyWaitStaysAtItsInstruction : Prop :=
  ∀ s t : State, WaitsAtKeyWait s → step s = .next t → WaitsAtKeyWait t

/-- The reset state of an engine with any configuration meets the three invariants (R36, R261). Running, so that no key wait is pending, and the zero stack slots are the spec's decision D14 (log 3), and the canonical memory is the model's choice (log 6). -/
def Obligations.ResetMeetsInvariants : Prop :=
  ∀ c : Config, MemCanonical (State.resetWith c) ∧ PcBounded (State.resetWith c) ∧ WaitsAtKeyWait (State.resetWith c)
end

