-- ==== Sys2Proof/Laws/Decode.lean ====
section
/-! SUPPORT. The fields of encoded words, and the word of its two bytes (spec/30_encoding.md R90 to R93). -/

namespace Sys2Proof

/-! ### The bits of an encoded word -/

theorem encodeFA_bit (op : Nibble) (nnn : Addr12) (k : Nat) :
    (encodeFA op nnn).getLsbD k = if k < 12 then nnn.getLsbD k else op.getLsbD (k - 12) := BitVec.getLsbD_append

theorem encodeFXK_bit (op : Nibble) (x : Reg) (kk : Byte) (k : Nat) :
    (encodeFXK op x kk).getLsbD k =
      if k < 12 then (if k < 8 then kk.getLsbD k else (regBits x).getLsbD (k - 8)) else op.getLsbD (k - 12) := by
  rw [← BitVec.getLsbD_append]
  exact BitVec.getLsbD_append

theorem encodeFXY_bit (op : Nibble) (x y : Reg) (n : Nibble) (k : Nat) :
    (encodeFXY op x y n).getLsbD k =
      if k < 12 then
        (if k < 8 then (if k < 4 then n.getLsbD k else (regBits y).getLsbD (k - 4)) else (regBits x).getLsbD (k - 8))
      else op.getLsbD (k - 12) := by
  rw [← BitVec.getLsbD_append, ← BitVec.getLsbD_append]
  exact BitVec.getLsbD_append

theorem regBits_toFin (x : Reg) : (regBits x).toFin = x := rfl

/-! ### The fields of an encoded word -/

theorem op_encodeFA (op : Nibble) (nnn : Addr12) : (encodeFA op nnn).extractLsb' 12 4 = op := by
  apply BitVec.eq_of_getLsbD_eq
  intro k hk
  simp [encodeFA_bit, hk]

theorem op_encodeFXK (op : Nibble) (x : Reg) (kk : Byte) : (encodeFXK op x kk).extractLsb' 12 4 = op := by
  apply BitVec.eq_of_getLsbD_eq
  intro k hk
  simp [encodeFXK_bit, hk]

theorem op_encodeFXY (op : Nibble) (x y : Reg) (n : Nibble) : (encodeFXY op x y n).extractLsb' 12 4 = op := by
  apply BitVec.eq_of_getLsbD_eq
  intro k hk
  simp [encodeFXY_bit, hk]

theorem fieldNNN_encodeFA (op : Nibble) (nnn : Addr12) : fieldNNN (encodeFA op nnn) = nnn := by
  apply BitVec.eq_of_getLsbD_eq
  intro k hk
  simp [fieldNNN, encodeFA_bit, hk]

theorem fieldX_encodeFXK (op : Nibble) (x : Reg) (kk : Byte) : fieldX (encodeFXK op x kk) = x := by
  have : (encodeFXK op x kk).extractLsb' 8 4 = regBits x := by
    apply BitVec.eq_of_getLsbD_eq
    intro k hk
    have h1 : 8 + k < 12 := by omega
    simp [encodeFXK_bit, h1, hk]
  rw [fieldX, this, regBits_toFin]

theorem fieldKK_encodeFXK (op : Nibble) (x : Reg) (kk : Byte) : fieldKK (encodeFXK op x kk) = kk := by
  apply BitVec.eq_of_getLsbD_eq
  intro k hk
  have h1 : k < 12 := by omega
  simp [fieldKK, encodeFXK_bit, h1, hk]

theorem fieldX_encodeFXY (op : Nibble) (x y : Reg) (n : Nibble) : fieldX (encodeFXY op x y n) = x := by
  have : (encodeFXY op x y n).extractLsb' 8 4 = regBits x := by
    apply BitVec.eq_of_getLsbD_eq
    intro k hk
    have h1 : 8 + k < 12 := by omega
    simp [encodeFXY_bit, h1, hk]
  rw [fieldX, this, regBits_toFin]

theorem fieldY_encodeFXY (op : Nibble) (x y : Reg) (n : Nibble) : fieldY (encodeFXY op x y n) = y := by
  have : (encodeFXY op x y n).extractLsb' 4 4 = regBits y := by
    apply BitVec.eq_of_getLsbD_eq
    intro k hk
    have h1 : 4 + k < 12 := by omega
    have h2 : 4 + k < 8 := by omega
    simp [encodeFXY_bit, h1, h2, hk]
  rw [fieldY, this, regBits_toFin]

theorem fieldN_encodeFXY (op : Nibble) (x y : Reg) (n : Nibble) : fieldN (encodeFXY op x y n) = n := by
  apply BitVec.eq_of_getLsbD_eq
  intro k hk
  have h1 : k < 12 := by omega
  have h2 : k < 8 := by omega
  simp [fieldN, encodeFXY_bit, h1, h2, hk]

/-! ### Words and bytes -/

/-- A word is the word of its two bytes. -/
theorem wordOfBytes_bytes (w : Word) : wordOfBytes (highByte w) (lowByte w) = w := by
  have hbit : ∀ k, (wordOfBytes (highByte w) (lowByte w)).getLsbD k =
      if k < 8 then (lowByte w).getLsbD k else (highByte w).getLsbD (k - 8) := fun _ => BitVec.getLsbD_append
  apply BitVec.eq_of_getLsbD_eq
  intro k hk
  rw [hbit]
  split
  · rename_i h
    simp [lowByte, h]
  · rename_i h
    have h1 : k - 8 < 8 := by omega
    have h2 : 8 + (k - 8) = k := by omega
    simp [highByte, h1, h2]

/-- Decoding the bytes of a word decodes the word (R90). -/
theorem decodeBytes_bytes (w : Word) (rest : List Byte) :
    decodeBytes (highByte w :: lowByte w :: rest) =
      match decode w with
      | .ok i => .ok (i, rest)
      | .error e => .error e := by
  cases h : decode w <;> simp [decodeBytes, wordOfBytes_bytes, h]

end Sys2Proof
end

