-- ==== Sys2Proof/Laws/State.lean ====
section
/-! SUPPORT. What each named update of the state does to each field, each true by rfl, and what the two reads see. -/

namespace Sys2Proof.Machine

variable (s : State)

/-! ### setV -/

@[simp] theorem setV_v (r : Reg) (b : Byte) : (s.setV r b).v = s.v.set r.val b r.isLt := rfl
@[simp] theorem setV_i (r : Reg) (b : Byte) : (s.setV r b).i = s.i := rfl
@[simp] theorem setV_pc (r : Reg) (b : Byte) : (s.setV r b).pc = s.pc := rfl
@[simp] theorem setV_stack (r : Reg) (b : Byte) : (s.setV r b).stack = s.stack := rfl
@[simp] theorem setV_sp (r : Reg) (b : Byte) : (s.setV r b).sp = s.sp := rfl
@[simp] theorem setV_dt (r : Reg) (b : Byte) : (s.setV r b).dt = s.dt := rfl
@[simp] theorem setV_st (r : Reg) (b : Byte) : (s.setV r b).st = s.st := rfl
@[simp] theorem setV_fb (r : Reg) (b : Byte) : (s.setV r b).fb = s.fb := rfl
@[simp] theorem setV_keys (r : Reg) (b : Byte) : (s.setV r b).keys = s.keys := rfl
@[simp] theorem setV_wm (r : Reg) (b : Byte) : (s.setV r b).wm = s.wm := rfl
@[simp] theorem setV_mem (r : Reg) (b : Byte) : (s.setV r b).mem = s.mem := rfl
@[simp] theorem setV_res (r : Reg) (b : Byte) : (s.setV r b).res = s.res := rfl
@[simp] theorem setV_cfg (r : Reg) (b : Byte) : (s.setV r b).cfg = s.cfg := rfl
@[simp] theorem setV_rand (r : Reg) (b : Byte) : (s.setV r b).rand = s.rand := rfl
@[simp] theorem setV_turns (r : Reg) (b : Byte) : (s.setV r b).turns = s.turns := rfl
@[simp] theorem setV_turnNo (r : Reg) (b : Byte) : (s.setV r b).turnNo = s.turnNo := rfl
@[simp] theorem setV_byteAt (r : Reg) (b : Byte) (a : Nat) : (s.setV r b).byteAt a = s.byteAt a := rfl

/-! ### setI -/

@[simp] theorem setI_v (w : Word) : (s.setI w).v = s.v := rfl
@[simp] theorem setI_i (w : Word) : (s.setI w).i = w := rfl
@[simp] theorem setI_pc (w : Word) : (s.setI w).pc = s.pc := rfl
@[simp] theorem setI_stack (w : Word) : (s.setI w).stack = s.stack := rfl
@[simp] theorem setI_sp (w : Word) : (s.setI w).sp = s.sp := rfl
@[simp] theorem setI_dt (w : Word) : (s.setI w).dt = s.dt := rfl
@[simp] theorem setI_st (w : Word) : (s.setI w).st = s.st := rfl
@[simp] theorem setI_fb (w : Word) : (s.setI w).fb = s.fb := rfl
@[simp] theorem setI_keys (w : Word) : (s.setI w).keys = s.keys := rfl
@[simp] theorem setI_wm (w : Word) : (s.setI w).wm = s.wm := rfl
@[simp] theorem setI_mem (w : Word) : (s.setI w).mem = s.mem := rfl
@[simp] theorem setI_res (w : Word) : (s.setI w).res = s.res := rfl
@[simp] theorem setI_cfg (w : Word) : (s.setI w).cfg = s.cfg := rfl
@[simp] theorem setI_rand (w : Word) : (s.setI w).rand = s.rand := rfl
@[simp] theorem setI_turns (w : Word) : (s.setI w).turns = s.turns := rfl
@[simp] theorem setI_turnNo (w : Word) : (s.setI w).turnNo = s.turnNo := rfl
@[simp] theorem setI_getV (w : Word) (q : Reg) : (s.setI w).getV q = s.getV q := rfl
@[simp] theorem setI_byteAt (w : Word) (a : Nat) : (s.setI w).byteAt a = s.byteAt a := rfl

/-! ### setPc -/

@[simp] theorem setPc_v (w : Word) : (s.setPc w).v = s.v := rfl
@[simp] theorem setPc_i (w : Word) : (s.setPc w).i = s.i := rfl
@[simp] theorem setPc_pc (w : Word) : (s.setPc w).pc = w := rfl
@[simp] theorem setPc_stack (w : Word) : (s.setPc w).stack = s.stack := rfl
@[simp] theorem setPc_sp (w : Word) : (s.setPc w).sp = s.sp := rfl
@[simp] theorem setPc_dt (w : Word) : (s.setPc w).dt = s.dt := rfl
@[simp] theorem setPc_st (w : Word) : (s.setPc w).st = s.st := rfl
@[simp] theorem setPc_fb (w : Word) : (s.setPc w).fb = s.fb := rfl
@[simp] theorem setPc_keys (w : Word) : (s.setPc w).keys = s.keys := rfl
@[simp] theorem setPc_wm (w : Word) : (s.setPc w).wm = s.wm := rfl
@[simp] theorem setPc_mem (w : Word) : (s.setPc w).mem = s.mem := rfl
@[simp] theorem setPc_res (w : Word) : (s.setPc w).res = s.res := rfl
@[simp] theorem setPc_cfg (w : Word) : (s.setPc w).cfg = s.cfg := rfl
@[simp] theorem setPc_rand (w : Word) : (s.setPc w).rand = s.rand := rfl
@[simp] theorem setPc_turns (w : Word) : (s.setPc w).turns = s.turns := rfl
@[simp] theorem setPc_turnNo (w : Word) : (s.setPc w).turnNo = s.turnNo := rfl
@[simp] theorem setPc_getV (w : Word) (q : Reg) : (s.setPc w).getV q = s.getV q := rfl
@[simp] theorem setPc_byteAt (w : Word) (a : Nat) : (s.setPc w).byteAt a = s.byteAt a := rfl

/-! ### advance -/

@[simp] theorem advance_v : (s.advance).v = s.v := rfl
@[simp] theorem advance_i : (s.advance).i = s.i := rfl
@[simp] theorem advance_pc : (s.advance).pc = s.pc + 2 := rfl
@[simp] theorem advance_stack : (s.advance).stack = s.stack := rfl
@[simp] theorem advance_sp : (s.advance).sp = s.sp := rfl
@[simp] theorem advance_dt : (s.advance).dt = s.dt := rfl
@[simp] theorem advance_st : (s.advance).st = s.st := rfl
@[simp] theorem advance_fb : (s.advance).fb = s.fb := rfl
@[simp] theorem advance_keys : (s.advance).keys = s.keys := rfl
@[simp] theorem advance_wm : (s.advance).wm = s.wm := rfl
@[simp] theorem advance_mem : (s.advance).mem = s.mem := rfl
@[simp] theorem advance_res : (s.advance).res = s.res := rfl
@[simp] theorem advance_cfg : (s.advance).cfg = s.cfg := rfl
@[simp] theorem advance_rand : (s.advance).rand = s.rand := rfl
@[simp] theorem advance_turns : (s.advance).turns = s.turns := rfl
@[simp] theorem advance_turnNo : (s.advance).turnNo = s.turnNo := rfl
@[simp] theorem advance_getV (q : Reg) : (s.advance).getV q = s.getV q := rfl
@[simp] theorem advance_byteAt (a : Nat) : (s.advance).byteAt a = s.byteAt a := rfl

/-! ### rewind -/

@[simp] theorem rewind_v : (s.rewind).v = s.v := rfl
@[simp] theorem rewind_i : (s.rewind).i = s.i := rfl
@[simp] theorem rewind_pc : (s.rewind).pc = s.pc - 2 := rfl
@[simp] theorem rewind_stack : (s.rewind).stack = s.stack := rfl
@[simp] theorem rewind_sp : (s.rewind).sp = s.sp := rfl
@[simp] theorem rewind_dt : (s.rewind).dt = s.dt := rfl
@[simp] theorem rewind_st : (s.rewind).st = s.st := rfl
@[simp] theorem rewind_fb : (s.rewind).fb = s.fb := rfl
@[simp] theorem rewind_keys : (s.rewind).keys = s.keys := rfl
@[simp] theorem rewind_wm : (s.rewind).wm = s.wm := rfl
@[simp] theorem rewind_mem : (s.rewind).mem = s.mem := rfl
@[simp] theorem rewind_res : (s.rewind).res = s.res := rfl
@[simp] theorem rewind_cfg : (s.rewind).cfg = s.cfg := rfl
@[simp] theorem rewind_rand : (s.rewind).rand = s.rand := rfl
@[simp] theorem rewind_turns : (s.rewind).turns = s.turns := rfl
@[simp] theorem rewind_turnNo : (s.rewind).turnNo = s.turnNo := rfl
@[simp] theorem rewind_getV (q : Reg) : (s.rewind).getV q = s.getV q := rfl
@[simp] theorem rewind_byteAt (a : Nat) : (s.rewind).byteAt a = s.byteAt a := rfl

/-! ### setDt -/

@[simp] theorem setDt_v (b : Byte) : (s.setDt b).v = s.v := rfl
@[simp] theorem setDt_i (b : Byte) : (s.setDt b).i = s.i := rfl
@[simp] theorem setDt_pc (b : Byte) : (s.setDt b).pc = s.pc := rfl
@[simp] theorem setDt_stack (b : Byte) : (s.setDt b).stack = s.stack := rfl
@[simp] theorem setDt_sp (b : Byte) : (s.setDt b).sp = s.sp := rfl
@[simp] theorem setDt_dt (b : Byte) : (s.setDt b).dt = b := rfl
@[simp] theorem setDt_st (b : Byte) : (s.setDt b).st = s.st := rfl
@[simp] theorem setDt_fb (b : Byte) : (s.setDt b).fb = s.fb := rfl
@[simp] theorem setDt_keys (b : Byte) : (s.setDt b).keys = s.keys := rfl
@[simp] theorem setDt_wm (b : Byte) : (s.setDt b).wm = s.wm := rfl
@[simp] theorem setDt_mem (b : Byte) : (s.setDt b).mem = s.mem := rfl
@[simp] theorem setDt_res (b : Byte) : (s.setDt b).res = s.res := rfl
@[simp] theorem setDt_cfg (b : Byte) : (s.setDt b).cfg = s.cfg := rfl
@[simp] theorem setDt_rand (b : Byte) : (s.setDt b).rand = s.rand := rfl
@[simp] theorem setDt_turns (b : Byte) : (s.setDt b).turns = s.turns := rfl
@[simp] theorem setDt_turnNo (b : Byte) : (s.setDt b).turnNo = s.turnNo := rfl
@[simp] theorem setDt_getV (b : Byte) (q : Reg) : (s.setDt b).getV q = s.getV q := rfl
@[simp] theorem setDt_byteAt (b : Byte) (a : Nat) : (s.setDt b).byteAt a = s.byteAt a := rfl

/-! ### setSt -/

@[simp] theorem setSt_v (b : Byte) : (s.setSt b).v = s.v := rfl
@[simp] theorem setSt_i (b : Byte) : (s.setSt b).i = s.i := rfl
@[simp] theorem setSt_pc (b : Byte) : (s.setSt b).pc = s.pc := rfl
@[simp] theorem setSt_stack (b : Byte) : (s.setSt b).stack = s.stack := rfl
@[simp] theorem setSt_sp (b : Byte) : (s.setSt b).sp = s.sp := rfl
@[simp] theorem setSt_dt (b : Byte) : (s.setSt b).dt = s.dt := rfl
@[simp] theorem setSt_st (b : Byte) : (s.setSt b).st = b := rfl
@[simp] theorem setSt_fb (b : Byte) : (s.setSt b).fb = s.fb := rfl
@[simp] theorem setSt_keys (b : Byte) : (s.setSt b).keys = s.keys := rfl
@[simp] theorem setSt_wm (b : Byte) : (s.setSt b).wm = s.wm := rfl
@[simp] theorem setSt_mem (b : Byte) : (s.setSt b).mem = s.mem := rfl
@[simp] theorem setSt_res (b : Byte) : (s.setSt b).res = s.res := rfl
@[simp] theorem setSt_cfg (b : Byte) : (s.setSt b).cfg = s.cfg := rfl
@[simp] theorem setSt_rand (b : Byte) : (s.setSt b).rand = s.rand := rfl
@[simp] theorem setSt_turns (b : Byte) : (s.setSt b).turns = s.turns := rfl
@[simp] theorem setSt_turnNo (b : Byte) : (s.setSt b).turnNo = s.turnNo := rfl
@[simp] theorem setSt_getV (b : Byte) (q : Reg) : (s.setSt b).getV q = s.getV q := rfl
@[simp] theorem setSt_byteAt (b : Byte) (a : Nat) : (s.setSt b).byteAt a = s.byteAt a := rfl

/-! ### setWm -/

@[simp] theorem setWm_v (m : WaitMode) : (s.setWm m).v = s.v := rfl
@[simp] theorem setWm_i (m : WaitMode) : (s.setWm m).i = s.i := rfl
@[simp] theorem setWm_pc (m : WaitMode) : (s.setWm m).pc = s.pc := rfl
@[simp] theorem setWm_stack (m : WaitMode) : (s.setWm m).stack = s.stack := rfl
@[simp] theorem setWm_sp (m : WaitMode) : (s.setWm m).sp = s.sp := rfl
@[simp] theorem setWm_dt (m : WaitMode) : (s.setWm m).dt = s.dt := rfl
@[simp] theorem setWm_st (m : WaitMode) : (s.setWm m).st = s.st := rfl
@[simp] theorem setWm_fb (m : WaitMode) : (s.setWm m).fb = s.fb := rfl
@[simp] theorem setWm_keys (m : WaitMode) : (s.setWm m).keys = s.keys := rfl
@[simp] theorem setWm_wm (m : WaitMode) : (s.setWm m).wm = m := rfl
@[simp] theorem setWm_mem (m : WaitMode) : (s.setWm m).mem = s.mem := rfl
@[simp] theorem setWm_res (m : WaitMode) : (s.setWm m).res = s.res := rfl
@[simp] theorem setWm_cfg (m : WaitMode) : (s.setWm m).cfg = s.cfg := rfl
@[simp] theorem setWm_rand (m : WaitMode) : (s.setWm m).rand = s.rand := rfl
@[simp] theorem setWm_turns (m : WaitMode) : (s.setWm m).turns = s.turns := rfl
@[simp] theorem setWm_turnNo (m : WaitMode) : (s.setWm m).turnNo = s.turnNo := rfl
@[simp] theorem setWm_getV (m : WaitMode) (q : Reg) : (s.setWm m).getV q = s.getV q := rfl
@[simp] theorem setWm_byteAt (m : WaitMode) (a : Nat) : (s.setWm m).byteAt a = s.byteAt a := rfl

/-! ### setFb -/

@[simp] theorem setFb_v (f : Frame) : (s.setFb f).v = s.v := rfl
@[simp] theorem setFb_i (f : Frame) : (s.setFb f).i = s.i := rfl
@[simp] theorem setFb_pc (f : Frame) : (s.setFb f).pc = s.pc := rfl
@[simp] theorem setFb_stack (f : Frame) : (s.setFb f).stack = s.stack := rfl
@[simp] theorem setFb_sp (f : Frame) : (s.setFb f).sp = s.sp := rfl
@[simp] theorem setFb_dt (f : Frame) : (s.setFb f).dt = s.dt := rfl
@[simp] theorem setFb_st (f : Frame) : (s.setFb f).st = s.st := rfl
@[simp] theorem setFb_fb (f : Frame) : (s.setFb f).fb = f := rfl
@[simp] theorem setFb_keys (f : Frame) : (s.setFb f).keys = s.keys := rfl
@[simp] theorem setFb_wm (f : Frame) : (s.setFb f).wm = s.wm := rfl
@[simp] theorem setFb_mem (f : Frame) : (s.setFb f).mem = s.mem := rfl
@[simp] theorem setFb_res (f : Frame) : (s.setFb f).res = s.res := rfl
@[simp] theorem setFb_cfg (f : Frame) : (s.setFb f).cfg = s.cfg := rfl
@[simp] theorem setFb_rand (f : Frame) : (s.setFb f).rand = s.rand := rfl
@[simp] theorem setFb_turns (f : Frame) : (s.setFb f).turns = s.turns := rfl
@[simp] theorem setFb_turnNo (f : Frame) : (s.setFb f).turnNo = s.turnNo := rfl
@[simp] theorem setFb_getV (f : Frame) (q : Reg) : (s.setFb f).getV q = s.getV q := rfl
@[simp] theorem setFb_byteAt (f : Frame) (a : Nat) : (s.setFb f).byteAt a = s.byteAt a := rfl

/-! ### setMem -/

@[simp] theorem setMem_v (m : Memory) : (s.setMem m).v = s.v := rfl
@[simp] theorem setMem_i (m : Memory) : (s.setMem m).i = s.i := rfl
@[simp] theorem setMem_pc (m : Memory) : (s.setMem m).pc = s.pc := rfl
@[simp] theorem setMem_stack (m : Memory) : (s.setMem m).stack = s.stack := rfl
@[simp] theorem setMem_sp (m : Memory) : (s.setMem m).sp = s.sp := rfl
@[simp] theorem setMem_dt (m : Memory) : (s.setMem m).dt = s.dt := rfl
@[simp] theorem setMem_st (m : Memory) : (s.setMem m).st = s.st := rfl
@[simp] theorem setMem_fb (m : Memory) : (s.setMem m).fb = s.fb := rfl
@[simp] theorem setMem_keys (m : Memory) : (s.setMem m).keys = s.keys := rfl
@[simp] theorem setMem_wm (m : Memory) : (s.setMem m).wm = s.wm := rfl
@[simp] theorem setMem_mem (m : Memory) : (s.setMem m).mem = m := rfl
@[simp] theorem setMem_res (m : Memory) : (s.setMem m).res = s.res := rfl
@[simp] theorem setMem_cfg (m : Memory) : (s.setMem m).cfg = s.cfg := rfl
@[simp] theorem setMem_rand (m : Memory) : (s.setMem m).rand = s.rand := rfl
@[simp] theorem setMem_turns (m : Memory) : (s.setMem m).turns = s.turns := rfl
@[simp] theorem setMem_turnNo (m : Memory) : (s.setMem m).turnNo = s.turnNo := rfl
@[simp] theorem setMem_getV (m : Memory) (q : Reg) : (s.setMem m).getV q = s.getV q := rfl

/-! ### complete -/

@[simp] theorem complete_v : (s.complete).v = s.v := rfl
@[simp] theorem complete_i : (s.complete).i = s.i := rfl
@[simp] theorem complete_pc : (s.complete).pc = s.pc := rfl
@[simp] theorem complete_stack : (s.complete).stack = s.stack := rfl
@[simp] theorem complete_sp : (s.complete).sp = s.sp := rfl
@[simp] theorem complete_dt : (s.complete).dt = s.dt := rfl
@[simp] theorem complete_st : (s.complete).st = s.st := rfl
@[simp] theorem complete_fb : (s.complete).fb = s.fb := rfl
@[simp] theorem complete_keys : (s.complete).keys = s.keys := rfl
@[simp] theorem complete_wm : (s.complete).wm = s.wm := rfl
@[simp] theorem complete_mem : (s.complete).mem = s.mem := rfl
@[simp] theorem complete_res : (s.complete).res = .ok := rfl
@[simp] theorem complete_cfg : (s.complete).cfg = s.cfg := rfl
@[simp] theorem complete_rand : (s.complete).rand = s.rand := rfl
@[simp] theorem complete_turns : (s.complete).turns = s.turns := rfl
@[simp] theorem complete_turnNo : (s.complete).turnNo = s.turnNo := rfl
@[simp] theorem complete_getV (q : Reg) : (s.complete).getV q = s.getV q := rfl
@[simp] theorem complete_byteAt (a : Nat) : (s.complete).byteAt a = s.byteAt a := rfl

/-! ### raise -/

@[simp] theorem raise_v (e : Err) : (s.raise e).v = s.v := rfl
@[simp] theorem raise_i (e : Err) : (s.raise e).i = s.i := rfl
@[simp] theorem raise_pc (e : Err) : (s.raise e).pc = s.pc := rfl
@[simp] theorem raise_stack (e : Err) : (s.raise e).stack = s.stack := rfl
@[simp] theorem raise_sp (e : Err) : (s.raise e).sp = s.sp := rfl
@[simp] theorem raise_dt (e : Err) : (s.raise e).dt = s.dt := rfl
@[simp] theorem raise_st (e : Err) : (s.raise e).st = s.st := rfl
@[simp] theorem raise_fb (e : Err) : (s.raise e).fb = s.fb := rfl
@[simp] theorem raise_keys (e : Err) : (s.raise e).keys = s.keys := rfl
@[simp] theorem raise_wm (e : Err) : (s.raise e).wm = s.wm := rfl
@[simp] theorem raise_mem (e : Err) : (s.raise e).mem = s.mem := rfl
@[simp] theorem raise_res (e : Err) : (s.raise e).res = .err e := rfl
@[simp] theorem raise_cfg (e : Err) : (s.raise e).cfg = s.cfg := rfl
@[simp] theorem raise_rand (e : Err) : (s.raise e).rand = s.rand := rfl
@[simp] theorem raise_turns (e : Err) : (s.raise e).turns = s.turns := rfl
@[simp] theorem raise_turnNo (e : Err) : (s.raise e).turnNo = s.turnNo := rfl
@[simp] theorem raise_getV (e : Err) (q : Reg) : (s.raise e).getV q = s.getV q := rfl
@[simp] theorem raise_byteAt (e : Err) (a : Nat) : (s.raise e).byteAt a = s.byteAt a := rfl

/-! ### tick -/

@[simp] theorem tick_v : (s.tick).v = s.v := rfl
@[simp] theorem tick_i : (s.tick).i = s.i := rfl
@[simp] theorem tick_pc : (s.tick).pc = s.pc := rfl
@[simp] theorem tick_stack : (s.tick).stack = s.stack := rfl
@[simp] theorem tick_sp : (s.tick).sp = s.sp := rfl
@[simp] theorem tick_dt : (s.tick).dt = tickDown s.dt := rfl
@[simp] theorem tick_st : (s.tick).st = tickDown s.st := rfl
@[simp] theorem tick_fb : (s.tick).fb = s.fb := rfl
@[simp] theorem tick_keys : (s.tick).keys = s.keys := rfl
@[simp] theorem tick_wm : (s.tick).wm = s.wm := rfl
@[simp] theorem tick_mem : (s.tick).mem = s.mem := rfl
@[simp] theorem tick_res : (s.tick).res = s.res := rfl
@[simp] theorem tick_cfg : (s.tick).cfg = s.cfg := rfl
@[simp] theorem tick_rand : (s.tick).rand = s.rand := rfl
@[simp] theorem tick_turns : (s.tick).turns = s.turns := rfl
@[simp] theorem tick_turnNo : (s.tick).turnNo = s.turnNo := rfl
@[simp] theorem tick_getV (q : Reg) : (s.tick).getV q = s.getV q := rfl
@[simp] theorem tick_byteAt (a : Nat) : (s.tick).byteAt a = s.byteAt a := rfl

/-! ### ticks -/

@[simp] theorem ticks_v (n : Nat) : (State.ticks n s).v = s.v := rfl
@[simp] theorem ticks_i (n : Nat) : (State.ticks n s).i = s.i := rfl
@[simp] theorem ticks_pc (n : Nat) : (State.ticks n s).pc = s.pc := rfl
@[simp] theorem ticks_stack (n : Nat) : (State.ticks n s).stack = s.stack := rfl
@[simp] theorem ticks_sp (n : Nat) : (State.ticks n s).sp = s.sp := rfl
@[simp] theorem ticks_dt (n : Nat) : (State.ticks n s).dt = countDown n s.dt := rfl
@[simp] theorem ticks_st (n : Nat) : (State.ticks n s).st = countDown n s.st := rfl
@[simp] theorem ticks_fb (n : Nat) : (State.ticks n s).fb = s.fb := rfl
@[simp] theorem ticks_keys (n : Nat) : (State.ticks n s).keys = s.keys := rfl
@[simp] theorem ticks_wm (n : Nat) : (State.ticks n s).wm = s.wm := rfl
@[simp] theorem ticks_mem (n : Nat) : (State.ticks n s).mem = s.mem := rfl
@[simp] theorem ticks_res (n : Nat) : (State.ticks n s).res = s.res := rfl
@[simp] theorem ticks_cfg (n : Nat) : (State.ticks n s).cfg = s.cfg := rfl
@[simp] theorem ticks_rand (n : Nat) : (State.ticks n s).rand = s.rand := rfl
@[simp] theorem ticks_turns (n : Nat) : (State.ticks n s).turns = s.turns := rfl
@[simp] theorem ticks_turnNo (n : Nat) : (State.ticks n s).turnNo = s.turnNo := rfl
@[simp] theorem ticks_getV (n : Nat) (q : Reg) : (State.ticks n s).getV q = s.getV q := rfl
@[simp] theorem ticks_byteAt (n : Nat) (a : Nat) : (State.ticks n s).byteAt a = s.byteAt a := rfl

/-! ### Reading a register after a write -/

theorem setV_getV (r q : Reg) (b : Byte) : (s.setV r b).getV q = if r = q then b else s.getV q := by
  simp [State.getV, Vector.getElem_set, Fin.ext_iff]

@[simp] theorem setV_getV_self (r : Reg) (b : Byte) : (s.setV r b).getV r = b := by simp [setV_getV]

theorem setV_getV_ne {r q : Reg} (b : Byte) (h : r ≠ q) : (s.setV r b).getV q = s.getV q := by simp [setV_getV, h]

end Sys2Proof.Machine
end

