-- ==== Sys2Proof/Laws/Memory.lean ====
section
/-! SUPPORT. Memory: a read after a write, the canonical form, and what the byte loops do (spec/20_memory.md R61 to R64, R72, R78). -/

namespace Sys2Proof.Machine

/-! ### Reset contents -/

/-- The font region reads as the font table (spec/20_memory.md R69, R70). -/
theorem resetByte_font (c : Config) (k : Nat) (h : k < 80) : resetByte c (0x050 + k) = c.fontTable[k] := by
  have h1 : fontBase ≤ 0x050 + k ∧ 0x050 + k < fontBase + 80 := ⟨Nat.le_add_right .., Nat.add_lt_add_left h _⟩
  rw [resetByte, dif_pos h1]
  simp [fontBase]

/-- Outside the font region the reset contents are 0 (R69). -/
theorem resetByte_other (c : Config) (a : Nat) (h : a < 0x050 ∨ 0x0A0 ≤ a) : resetByte c a = 0 := by
  have h1 : ¬(fontBase ≤ a ∧ a < fontBase + 80) := by
    rintro ⟨h2, h3⟩
    change 0x050 ≤ a at h2
    change a < 0x0A0 at h3
    omega
  rw [resetByte, dif_neg h1]

/-- Where a memory lists nothing, every byte reads as its reset contents. -/
theorem Memory.read_nil (c : Config) (a : Nat) : Memory.read c [] a = resetByte c a := rfl

/-- LoadRom accepts at most 3583 bytes (R72). -/
theorem romFits_eq (image : List Byte) : romFits image = decide (image.length < 3584) := rfl

/-! ### The list -/

theorem Memory.listed_erase (m : Memory) (a b : Nat) :
    Memory.listed (Memory.erase m a) b = if b = a then none else Memory.listed m b := by
  induction m with
  | nil => simp [Memory.erase, Memory.listed]
  | cons e m ih =>
    obtain ⟨k, v⟩ := e
    by_cases hk : k = a <;> by_cases hb : b = a <;> by_cases hkb : k = b <;>
      simp_all [Memory.erase, Memory.listed]

theorem Memory.listed_insert (m : Memory) (a b : Nat) (v : Byte) (h : Memory.listed m a = none) :
    Memory.listed (Memory.insert m a v) b = if b = a then some v else Memory.listed m b := by
  induction m with
  | nil => simp [Memory.insert, Memory.listed, eq_comm]
  | cons e m ih =>
    obtain ⟨k, w⟩ := e
    have hk : k ≠ a := by
      intro hka
      simp [Memory.listed, hka] at h
    simp only [Memory.listed, hk, if_false] at h
    by_cases hlt : a < k
    · by_cases hb : b = a <;> simp [Memory.insert, Memory.listed, hlt, hb, eq_comm]
      intro hab
      exact absurd hab.symm hb
    · by_cases hkb : k = b
      · subst hkb
        simp [Memory.insert, Memory.listed, hlt, hk]
      · simp [Memory.insert, Memory.listed, hlt, hkb, ih h]

/-- A read after a write: the byte written at the address written, every other byte as before. Holds of every list. -/
theorem Memory.read_write (c : Config) (m : Memory) (a b : Nat) (v : Byte) :
    Memory.read c (Memory.write c m a v) b = if b = a then v else Memory.read c m b := by
  have hnone : Memory.listed (Memory.erase m a) a = none := by simp [Memory.listed_erase]
  by_cases hv : v = resetByte c a
  · by_cases hb : b = a <;> simp [Memory.read, Memory.write, hv, hb, Memory.listed_erase]
  · by_cases hb : b = a <;>
      simp [Memory.read, Memory.write, hv, hb, Memory.listed_insert _ _ _ _ hnone, Memory.listed_erase]

/-! ### The canonical form -/

theorem Memory.mem_of_mem_erase {m : Memory} {a : Nat} {e : Host.Cell} (h : e ∈ Memory.erase m a) : e ∈ m ∧ e.1 ≠ a := by
  induction m with
  | nil => simp [Memory.erase] at h
  | cons d m ih =>
    obtain ⟨k, w⟩ := d
    by_cases hk : k = a
    · simp only [Memory.erase, hk, if_true] at h
      exact ⟨List.mem_cons_of_mem _ (ih h).1, (ih h).2⟩
    · simp only [Memory.erase, hk, if_false, List.mem_cons] at h
      obtain rfl | h := h
      · exact ⟨List.mem_cons_self, hk⟩
      · exact ⟨List.mem_cons_of_mem _ (ih h).1, (ih h).2⟩

theorem Memory.mem_of_mem_insert {m : Memory} {a : Nat} {v : Byte} {e : Host.Cell} (h : e ∈ Memory.insert m a v) :
    e = (a, v) ∨ e ∈ m := by
  induction m with
  | nil => simpa [Memory.insert] using h
  | cons d m ih =>
    obtain ⟨k, w⟩ := d
    by_cases hk : a < k
    · simpa [Memory.insert, hk] using h
    · simp only [Memory.insert, hk, if_false, List.mem_cons] at h
      obtain rfl | h := h
      · simp
      · obtain h | h := ih h <;> simp [h]

theorem Memory.wf_cons (c : Config) (k : Nat) (b : Byte) (m : Memory) :
    Memory.wf c ((k, b) :: m) = true ↔
      k < memSize ∧ b ≠ resetByte c k ∧ (∀ e ∈ m, k < e.1) ∧ Memory.wf c m = true := by
  simp [Memory.wf, and_assoc]

theorem Memory.wf_erase {c : Config} {m : Memory} (a : Nat) (h : Memory.wf c m = true) :
    Memory.wf c (Memory.erase m a) = true := by
  induction m with
  | nil => rfl
  | cons e m ih =>
    obtain ⟨k, b⟩ := e
    obtain ⟨hk, hb, hall, hm⟩ := (Memory.wf_cons c k b m).1 h
    by_cases hka : k = a
    · simpa [Memory.erase, hka] using ih hm
    · simp only [Memory.erase, hka, if_false]
      exact (Memory.wf_cons ..).2 ⟨hk, hb, fun e he => hall e (Memory.mem_of_mem_erase he).1, ih hm⟩

theorem Memory.wf_insert {c : Config} {m : Memory} {a : Nat} {v : Byte} (ha : a < memSize) (hv : v ≠ resetByte c a)
    (hfree : ∀ e ∈ m, e.1 ≠ a) (h : Memory.wf c m = true) : Memory.wf c (Memory.insert m a v) = true := by
  induction m with
  | nil => exact (Memory.wf_cons ..).2 ⟨ha, hv, by simp, rfl⟩
  | cons e m ih =>
    obtain ⟨k, b⟩ := e
    obtain ⟨hk, hb, hall, hm⟩ := (Memory.wf_cons c k b m).1 h
    by_cases hka : a < k
    · simp only [Memory.insert, hka, if_true]
      refine (Memory.wf_cons ..).2 ⟨ha, hv, ?_, h⟩
      intro e he
      obtain rfl | he := List.mem_cons.1 he
      · exact hka
      · exact lt_trans hka (hall e he)
    · simp only [Memory.insert, hka, if_false]
      have hne : k ≠ a := hfree (k, b) List.mem_cons_self
      refine (Memory.wf_cons ..).2 ⟨hk, hb, ?_, ih (fun e he => hfree e (List.mem_cons_of_mem _ he)) hm⟩
      intro e he
      obtain rfl | he := Memory.mem_of_mem_insert he
      · show k < a
        omega
      · exact hall e he

/-- Every write inside the address space keeps the canonical form. -/
theorem Memory.wf_write {c : Config} {m : Memory} {a : Nat} (v : Byte) (ha : a < memSize) (h : Memory.wf c m = true) :
    Memory.wf c (Memory.write c m a v) = true := by
  by_cases hv : v = resetByte c a
  · simpa [Memory.write, hv] using Memory.wf_erase a h
  · simp only [Memory.write, hv, if_false]
    exact Memory.wf_insert ha hv (fun e he => (Memory.mem_of_mem_erase he).2) (Memory.wf_erase a h)

/-- A ROM image inside the address space keeps the canonical form. -/
theorem Memory.wf_load {c : Config} (image : List Byte) {m : Memory} {a : Nat} (ha : a + image.length ≤ memSize)
    (h : Memory.wf c m = true) : Memory.wf c (Memory.load c m a image) = true := by
  induction image generalizing m a with
  | nil => exact h
  | cons b bs ih =>
    simp only [List.length_cons] at ha
    exact ih (by omega) (Memory.wf_write b (by omega) h)

/-- What memory reads after a ROM image was written at `a`. -/
theorem Memory.read_load (c : Config) (image : List Byte) (m : Memory) (a b : Nat) :
    Memory.read c (Memory.load c m a image) b =
      if h : a ≤ b ∧ b - a < image.length then image[b - a] else Memory.read c m b := by
  induction image generalizing m a with
  | nil => simp [Memory.load]
  | cons x xs ih =>
    rw [Memory.load, ih, Memory.read_write]
    by_cases hba : b = a
    · simp [hba]
    · by_cases h : a + 1 ≤ b
      · obtain ⟨d, rfl⟩ : ∃ d, b = a + 1 + d := ⟨b - (a + 1), by omega⟩
        have h1 : a + 1 + d - a = d + 1 := by omega
        have h2 : a + 1 + d - (a + 1) = d := by omega
        simp only [h1, h2, List.length_cons, List.getElem_cons_succ, hba, if_false]
        by_cases hd : d < xs.length
        · rw [dif_pos ⟨by omega, hd⟩, dif_pos ⟨by omega, by omega⟩]
        · rw [dif_neg (by omega), dif_neg (by omega)]
      · rw [dif_neg (by omega), dif_neg (by omega), if_neg hba]

/-! ### The accessors -/

theorem memRead_ok {s : State} {a : Nat} (h : a < 4096) : s.memRead a = .ok (s.byteAt a) := by
  simp [State.memRead, memSize, h]

theorem memRead_error {s : State} {a : Nat} (h : 4096 ≤ a) : s.memRead a = .error (outOfRange a) := by
  simp [State.memRead, memSize, Nat.not_lt.2 h]

theorem memWrite_ok {s : State} {a : Nat} (v : Byte) (h : a < 4096) :
    s.memWrite a v = .ok (s.setMem (Memory.write s.cfg s.mem a v)) := by
  simp [State.memWrite, memSize, h]

theorem memWrite_error {s : State} {a : Nat} (v : Byte) (h : 4096 ≤ a) : s.memWrite a v = .error (outOfRange a) := by
  simp [State.memWrite, memSize, Nat.not_lt.2 h]

/-- A byte read after one byte was written. -/
theorem byteAt_write (s : State) (a b : Nat) (v : Byte) :
    (s.setMem (Memory.write s.cfg s.mem a v)).byteAt b = if b = a then v else s.byteAt b :=
  Memory.read_write s.cfg s.mem a b v

/-- The word read, in range (R63). -/
theorem memReadWord_ok {s : State} {a : Nat} (h : a + 1 < 4096) :
    s.memReadWord a = .ok (s.byteAt a ++ s.byteAt (a + 1)) := by
  simp [State.memReadWord, memRead_ok (s := s) (a := a) (by omega), memRead_ok (s := s) h]

/-- The word read past the end reports the first failing byte (R63). -/
theorem memReadWord_error {s : State} {a : Nat} (h : 4096 ≤ a + 1) :
    s.memReadWord a = .error (outOfRange (max a 4096)) := by
  by_cases ha : 4096 ≤ a
  · simp [State.memReadWord, memRead_error (s := s) ha, Nat.max_eq_left ha]
  · obtain rfl : a = 4095 := by omega
    simp [State.memReadWord, memRead_ok (s := s) (a := 4095) (by omega), memRead_error (s := s) (a := 4096) (by omega)]

/-! ### The loops -/

/-- Everything `storeBytes` can do: it writes memory alone, each byte whose address exists; it is done where the last address exists, and otherwise raises the first failing address (R78). -/
theorem storeBytes_spec (bs : List Byte) : ∀ (a : Nat) (s : State),
    ∃ m : Memory,
      (Memory.wf s.cfg s.mem = true → Memory.wf s.cfg m = true) ∧
      (∀ b : Nat, (s.setMem m).byteAt b =
        if h : a ≤ b ∧ b - a < bs.length ∧ b < 4096 then bs[b - a]'h.2.1 else s.byteAt b) ∧
      State.storeBytes a bs s =
        if a + bs.length ≤ 4096 ∨ bs = [] then .done () (s.setMem m) else .raised (outOfRange (max a 4096)) (s.setMem m) := by
  induction bs with
  | nil =>
    intro a s
    exact ⟨s.mem, id, by intro b; simp [State.byteAt], by simp [State.storeBytes, State.setMem]⟩
  | cons x xs ih =>
    intro a s
    by_cases ha : a < 4096
    · obtain ⟨m, hwf, hread, hstore⟩ := ih (a + 1) (s.setMem (Memory.write s.cfg s.mem a x))
      refine ⟨m, fun h => hwf (Memory.wf_write x ha h), ?_, ?_⟩
      · intro b
        have hb := hread b
        rw [byteAt_write] at hb
        refine Eq.trans hb ?_
        by_cases hba : b = a
        · subst hba
          rw [dif_neg (by omega), if_pos rfl, dif_pos ⟨le_refl _, by simp, ha⟩]
          simp
        · by_cases hlt : a + 1 ≤ b
          · obtain ⟨d, rfl⟩ : ∃ d, b = a + 1 + d := ⟨b - (a + 1), by omega⟩
            have h1 : a + 1 + d - a = d + 1 := by omega
            have h2 : a + 1 + d - (a + 1) = d := by omega
            simp only [h1, h2, List.length_cons, List.getElem_cons_succ, hba, if_false]
            by_cases hd : d < xs.length ∧ a + 1 + d < 4096
            · rw [dif_pos ⟨by omega, hd⟩, dif_pos ⟨by omega, by omega, hd.2⟩]
            · rw [dif_neg (by omega), dif_neg (by omega)]
          · rw [dif_neg (by omega), dif_neg (by omega), if_neg hba]
      · rw [State.storeBytes, memWrite_ok x ha]
        refine Eq.trans hstore ?_
        have hmax : max (a + 1) 4096 = max a 4096 := by omega
        rw [hmax]
        by_cases hx : xs = []
        · subst hx
          simp only [or_true, if_true, List.length_singleton]
          rw [if_pos (Or.inl (by omega))]
          rfl
        · have hpos : 0 < xs.length := List.length_pos_iff.2 hx
          simp only [hx, or_false, List.length_cons, reduceCtorEq]
          have heq : (a + 1 + xs.length ≤ 4096) = (a + (xs.length + 1) ≤ 4096) := by
            rw [Nat.add_assoc, Nat.add_comm 1]
          rw [if_congr (iff_of_eq heq) rfl rfl]
          rfl
    · refine ⟨s.mem, id, ?_, ?_⟩
      · intro b
        rw [dif_neg (by omega)]
        rfl
      · rw [State.storeBytes, memWrite_error x (by omega), if_neg (by simp; omega), Nat.max_eq_left (by omega)]
        rfl

end Sys2Proof.Machine
end

