-- ==== Sys2Proof/Laws/Display.lean ====
section
/-! SUPPORT. The display loops: what the XOR byte draw does to each pixel and when it collides (spec/43_display.md R191), and what the row loop of DRW can do (R193). -/

namespace Sys2Proof.Machine

open Sys2Proof.Safety

theorem pixel_flip (f : Frame) (r q : Fin 32) (c d : Fin 64) :
    Frame.pixel (Frame.flip f r c) q d = (Frame.pixel f q d ^^ (decide (q = r) && decide (d = c))) := by
  by_cases hr : q = r
  · subst hr
    by_cases hc : d = c
    · subst hc
      simp [Frame.pixel, Frame.flip]
    · have : c.val ≠ d.val := fun h => hc (Fin.ext h.symm)
      simp [Frame.pixel, Frame.flip, hc, this]
  · have : r.val ≠ q.val := fun h => hr (Fin.ext h.symm)
    simp [Frame.pixel, Frame.flip, hr, this]

theorem pixel_blank (r : Fin 32) (c : Fin 64) : Frame.pixel Frame.blank r c = false := by
  simp [Frame.pixel, Frame.blank]

/-- The loop from bit `j` on XORs the rest of the sprite row into the frame. -/
theorem drawBits_pixel (b : Byte) (r : Fin 32) (c0 : Nat) (n : Nat) : ∀ (j : Nat) (hit : Bool) (f : Frame),
    j + n = 8 → ∀ (q : Fin 32) (d : Fin 64),
    Frame.pixel (drawBits b r c0 n j hit f).2 q d =
      (Frame.pixel f q d ^^ (decide (q = r) && decide (c0 + j ≤ d.val) && spriteBit b c0 d.val)) := by
  induction n with
  | zero =>
    intro j hit f hj q d
    have : (decide (c0 + j ≤ d.val) && spriteBit b c0 d.val) = false := by
      simp only [spriteBit, Bool.and_eq_false_iff, decide_eq_false_iff_not]
      omega
    simp [drawBits, Bool.and_assoc, this]
  | succ n ih =>
    intro j hit f hj q d
    rw [drawBits]
    by_cases hc : c0 + j < 64
    · by_cases hb : b.getLsbD (7 - j) = true
      · rw [dif_pos hc, if_pos hb, ih _ _ _ (by omega), pixel_flip]
        by_cases hd : d.val = c0 + j
        · have hdc : d = ⟨c0 + j, hc⟩ := Fin.ext hd
          have hspr : spriteBit b c0 d.val = true := by simp [spriteBit, hd, hb]; omega
          have hpos : decide (c0 + j ≤ d.val) = true := by simp [hd]
          have hneg : decide (c0 + (j + 1) ≤ d.val) = false := by simp [hd]
          rw [hspr, hpos, hneg, ← hdc]
          simp
        · have hdc : d ≠ ⟨c0 + j, hc⟩ := fun h => hd (by rw [h])
          have hle : decide (c0 + (j + 1) ≤ d.val) = decide (c0 + j ≤ d.val) := by
            rw [decide_eq_decide]; omega
          simp [hdc, hle]
      · rw [dif_pos hc, if_neg hb, ih _ _ _ (by omega)]
        by_cases hd : d.val = c0 + j
        · have hspr : spriteBit b c0 d.val = false := by simp [spriteBit, hd, hb]
          simp [hspr]
        · have hle : decide (c0 + (j + 1) ≤ d.val) = decide (c0 + j ≤ d.val) := by
            rw [decide_eq_decide]; omega
          rw [hle]
    · rw [dif_neg hc]
      have : decide (c0 + j ≤ d.val) = false := by
        have := d.isLt
        simp only [decide_eq_false_iff_not]
        omega
      simp [this]

/-- The loop from bit `j` on collides exactly where a lit pixel lies under a 1 bit still to be drawn. -/
theorem drawBits_hit (b : Byte) (r : Fin 32) (c0 : Nat) (n : Nat) : ∀ (j : Nat) (hit : Bool) (f : Frame),
    j + n = 8 →
    ((drawBits b r c0 n j hit f).1 = true ↔
      hit = true ∨ ∃ d : Fin 64, c0 + j ≤ d.val ∧ Frame.pixel f r d = true ∧ spriteBit b c0 d.val = true) := by
  induction n with
  | zero =>
    intro j hit f hj
    simp only [drawBits]
    constructor
    · exact Or.inl
    · rintro (h | ⟨d, hd, _, hs⟩)
      · exact h
      · simp [spriteBit] at hs
        omega
  | succ n ih =>
    intro j hit f hj
    rw [drawBits]
    by_cases hc : c0 + j < 64
    · have hsplit : ∀ P : Fin 64 → Prop, (∃ d : Fin 64, c0 + j ≤ d.val ∧ P d) ↔
          P ⟨c0 + j, hc⟩ ∨ ∃ d : Fin 64, c0 + (j + 1) ≤ d.val ∧ P d := by
        intro P
        constructor
        · rintro ⟨d, hd, hp⟩
          by_cases he : d.val = c0 + j
          · left
            have : d = ⟨c0 + j, hc⟩ := Fin.ext he
            exact this ▸ hp
          · exact Or.inr ⟨d, by omega, hp⟩
        · rintro (hp | ⟨d, hd, hp⟩)
          · exact ⟨_, le_refl _, hp⟩
          · exact ⟨d, by omega, hp⟩
      rw [hsplit]
      have hspr : spriteBit b c0 (c0 + j) = b.getLsbD (7 - j) := by
        simp [spriteBit]; omega
      by_cases hb : b.getLsbD (7 - j) = true
      · rw [dif_pos hc, if_pos hb, ih _ _ _ (by omega)]
        have hrest : ∀ d : Fin 64, c0 + (j + 1) ≤ d.val →
            Frame.pixel (Frame.flip f r ⟨c0 + j, hc⟩) r d = Frame.pixel f r d := by
          intro d hd
          have : d ≠ ⟨c0 + j, hc⟩ := by
            rintro rfl
            simp only at hd
            omega
          simp [pixel_flip, this]
        simp only [hspr, hb, and_true, Bool.or_eq_true, or_assoc]
        apply or_congr_right
        apply or_congr_right
        constructor
        · rintro ⟨d, hd, hp, hs⟩
          exact ⟨d, hd, by rwa [hrest d hd] at hp, hs⟩
        · rintro ⟨d, hd, hp, hs⟩
          exact ⟨d, hd, by rwa [hrest d hd], hs⟩
      · rw [dif_pos hc, if_neg hb, ih _ _ _ (by omega)]
        simp [hspr, hb]
    · rw [dif_neg hc]
      constructor
      · exact Or.inl
      · rintro (h | ⟨d, hd, _⟩)
        · exact h
        · have := d.isLt
          omega

/-- Everything the row loop can do: it writes the frame alone; it draws each row whose byte exists; it is done where every row's byte exists and otherwise raises the first failing address (R193, spec/20_memory.md R78). The rows drawn differ, so each pixel is XORed once and collisions are with the frame before. -/
theorem drawRows_spec (x0 y0 : Nat) (hx : x0 < 64) (n : Nat) : ∀ (k : Nat) (hit : Bool) (s : State), k + n ≤ 32 →
    ∃ (f : Frame) (hit' : Bool),
      (∀ (q : Fin 32) (d : Fin 64),
        (∀ j : Nat, k ≤ j → j < k + rowsDrawn s.cfg (y0 + k) n → s.i.toNat + j < 4096 → (y0 + j) % 32 = q.val →
          Frame.pixel f q d = (Frame.pixel s.fb q d ^^ spriteBit (s.byteAt (s.i.toNat + j)) x0 d.val)) ∧
        ((∀ j : Nat, k ≤ j → j < k + rowsDrawn s.cfg (y0 + k) n → s.i.toNat + j < 4096 → (y0 + j) % 32 ≠ q.val) →
          Frame.pixel f q d = Frame.pixel s.fb q d)) ∧
      (hit' = true ↔ hit = true ∨ ∃ (j : Nat) (q : Fin 32) (d : Fin 64), k ≤ j ∧ j < k + rowsDrawn s.cfg (y0 + k) n ∧
        s.i.toNat + j < 4096 ∧ (y0 + j) % 32 = q.val ∧ Frame.pixel s.fb q d = true ∧
        spriteBit (s.byteAt (s.i.toNat + j)) x0 d.val = true) ∧
      State.drawRows x0 y0 n k hit s =
        if rowsDrawn s.cfg (y0 + k) n = 0 ∨ s.i.toNat + k + rowsDrawn s.cfg (y0 + k) n ≤ 4096 then .done hit' (s.setFb f)
        else .raised (outOfRange (max (s.i.toNat + k) 4096)) (s.setFb f) := by
  have hstop : ∀ (k m : Nat) (hit : Bool) (s : State), m = 0 ∨ 4096 ≤ s.i.toNat + k →
      (∀ (q : Fin 32) (d : Fin 64),
        (∀ j : Nat, k ≤ j → j < k + m → s.i.toNat + j < 4096 → (y0 + j) % 32 = q.val →
          Frame.pixel s.fb q d = (Frame.pixel s.fb q d ^^ spriteBit (s.byteAt (s.i.toNat + j)) x0 d.val)) ∧
        ((∀ j : Nat, k ≤ j → j < k + m → s.i.toNat + j < 4096 → (y0 + j) % 32 ≠ q.val) →
          Frame.pixel s.fb q d = Frame.pixel s.fb q d)) ∧
      (hit = true ↔ hit = true ∨ ∃ (j : Nat) (q : Fin 32) (d : Fin 64), k ≤ j ∧ j < k + m ∧
        s.i.toNat + j < 4096 ∧ (y0 + j) % 32 = q.val ∧ Frame.pixel s.fb q d = true ∧
        spriteBit (s.byteAt (s.i.toNat + j)) x0 d.val = true) := by
    intro k m hit s hm
    refine ⟨fun q d => ⟨?_, fun _ => rfl⟩, ⟨Or.inl, ?_⟩⟩
    · intro j h1 h2 h3
      omega
    · rintro (h | ⟨j, q, d, h1, h2, h3, _⟩)
      · exact h
      · omega
  induction n with
  | zero =>
    intro k hit s _
    have h0 : rowsDrawn s.cfg (y0 + k) 0 = 0 := by unfold rowsDrawn; split <;> simp
    obtain ⟨hp, hh⟩ := hstop k 0 hit s (Or.inl rfl)
    refine ⟨s.fb, hit, ?_, ?_, ?_⟩
    · rw [h0]; exact hp
    · rw [h0]; exact hh
    · simp [h0, State.drawRows, State.setFb]
  | succ n ih =>
    intro k hit s hk
    by_cases hclip : s.cfg.drawVertical = .clip ∧ 32 ≤ y0 + k
    · have h0 : rowsDrawn s.cfg (y0 + k) (n + 1) = 0 := by
        unfold rowsDrawn
        rw [hclip.1]
        simp only
        omega
      obtain ⟨hp, hh⟩ := hstop k 0 hit s (Or.inl rfl)
      refine ⟨s.fb, hit, ?_, ?_, ?_⟩
      · rw [h0]; exact hp
      · rw [h0]; exact hh
      · simp [h0, State.drawRows, hclip, State.setFb]
    · have hm : rowsDrawn s.cfg (y0 + k) (n + 1) = rowsDrawn s.cfg (y0 + (k + 1)) n + 1 := by
        unfold rowsDrawn
        cases hd : s.cfg.drawVertical with
        | wrap => rfl
        | clip =>
          have : ¬ 32 ≤ y0 + k := fun h => hclip ⟨hd, h⟩
          simp only
          omega
      by_cases ha : s.i.toNat + k < 4096
      · have hrow : ∀ q : Fin 32, q = ⟨(y0 + k) % 32, Nat.mod_lt _ (by decide)⟩ ↔ (y0 + k) % 32 = q.val := by
          intro q
          rw [Fin.ext_iff]
          exact eq_comm
        have hx64 : x0 % 64 = x0 := Nat.mod_eq_of_lt hx
        have hpix : ∀ (q : Fin 32) (d : Fin 64),
            Frame.pixel (drawByte (s.byteAt (s.i.toNat + k)) x0 (y0 + k) s.fb).2 q d =
              (Frame.pixel s.fb q d ^^ (decide ((y0 + k) % 32 = q.val) && spriteBit (s.byteAt (s.i.toNat + k)) x0 d.val)) := by
          intro q d
          rw [drawByte, drawBits_pixel _ _ _ _ _ _ _ (by rfl), hx64]
          have : decide (q = ⟨(y0 + k) % 32, Nat.mod_lt _ (by decide)⟩) = decide ((y0 + k) % 32 = q.val) := by
            rw [decide_eq_decide]; exact hrow q
          rw [this]
          cases hs : spriteBit (s.byteAt (s.i.toNat + k)) x0 d.val with
          | false => simp
          | true =>
            have : x0 ≤ d.val := by
              simp [spriteBit] at hs
              omega
            simp [this]
        have hhit : (drawByte (s.byteAt (s.i.toNat + k)) x0 (y0 + k) s.fb).1 = true ↔
            ∃ (q : Fin 32) (d : Fin 64), (y0 + k) % 32 = q.val ∧ Frame.pixel s.fb q d = true ∧
              spriteBit (s.byteAt (s.i.toNat + k)) x0 d.val = true := by
          rw [drawByte, drawBits_hit _ _ _ _ _ _ _ (by rfl), hx64]
          constructor
          · rintro (h | ⟨d, _, hp, hs⟩)
            · simp at h
            · exact ⟨_, d, rfl, hp, hs⟩
          · rintro ⟨q, d, hq, hp, hs⟩
            obtain rfl := (hrow q).2 hq
            refine Or.inr ⟨d, ?_, hp, hs⟩
            simp [spriteBit] at hs
            omega
        obtain ⟨f, hit', hp, hh, hrun⟩ := ih (k + 1)
          (hit || (drawByte (s.byteAt (s.i.toNat + k)) x0 (y0 + k) s.fb).1)
          (s.setFb (drawByte (s.byteAt (s.i.toNat + k)) x0 (y0 + k) s.fb).2) (by omega)
        simp only [setFb_cfg, setFb_i, setFb_byteAt, setFb_fb] at hp hh
        have hbound : k + 1 + rowsDrawn s.cfg (y0 + (k + 1)) n ≤ 33 := by
          unfold rowsDrawn
          split <;> omega
        have hdiff : ∀ j : Nat, k < j → j < k + 1 + rowsDrawn s.cfg (y0 + (k + 1)) n → (y0 + j) % 32 ≠ (y0 + k) % 32 := by
          have hle : rowsDrawn s.cfg (y0 + (k + 1)) n ≤ n := by
            unfold rowsDrawn
            split <;> omega
          intro j h1 h2
          omega
        refine ⟨f, hit', ?_, ?_, ?_⟩
        · intro q d
          rw [hm]
          constructor
          · intro j h1 h2 h3 h4
            by_cases hjk : j = k
            · subst hjk
              rw [(hp q d).2 (fun i h5 h6 _ h7 => hdiff i (by omega) (by omega) (by omega)), hpix]
              simp [h4]
            · rw [(hp q d).1 j (by omega) (by omega) h3 h4, hpix]
              have : (y0 + k) % 32 ≠ q.val := fun h => hdiff j (by omega) (by omega) (by omega)
              simp [this]
          · intro hno
            rw [(hp q d).2 (fun i h5 h6 h7 => hno i (by omega) (by omega) h7), hpix]
            have := hno k (le_refl _) (by omega) ha
            simp [this]
        · rw [hh, Bool.or_eq_true, hhit, hm, or_assoc]
          apply or_congr_right
          constructor
          · rintro (⟨q, d, hq, hlit, hs⟩ | ⟨j, q, d, h1, h2, h3, h4, h5, h6⟩)
            · exact ⟨k, q, d, le_refl _, by omega, ha, hq, hlit, hs⟩
            · refine ⟨j, q, d, by omega, by omega, h3, h4, ?_, h6⟩
              rw [hpix] at h5
              have : (y0 + k) % 32 ≠ q.val := fun h => hdiff j (by omega) (by omega) (by omega)
              simpa [this] using h5
          · rintro ⟨j, q, d, h1, h2, h3, h4, h5, h6⟩
            by_cases hjk : j = k
            · subst hjk
              exact Or.inl ⟨q, d, h4, h5, h6⟩
            · refine Or.inr ⟨j, q, d, by omega, by omega, h3, h4, ?_, h6⟩
              rw [hpix]
              have : (y0 + k) % 32 ≠ q.val := fun h => hdiff j (by omega) (by omega) (by omega)
              simpa [this] using h5
        · rw [State.drawRows, if_neg hclip, memRead_ok ha]
          refine Eq.trans hrun ?_
          split
          · rename_i hz
            simp only [setFb_cfg, setFb_i] at hz
            rw [if_pos (by omega)]
            rfl
          · rename_i hz
            simp only [setFb_cfg, setFb_i] at hz
            have hmax : max (s.i.toNat + (k + 1)) 4096 = max (s.i.toNat + k) 4096 := by omega
            rw [if_neg (by omega), setFb_i, hmax]
            rfl
      · obtain ⟨hp, hh⟩ := hstop k (rowsDrawn s.cfg (y0 + k) (n + 1)) hit s (Or.inr (by omega))
        refine ⟨s.fb, hit, hp, hh, ?_⟩
        rw [State.drawRows, if_neg hclip, memRead_error (by omega), if_neg (by omega), Nat.max_eq_left (by omega)]
        rfl

end Sys2Proof.Machine
end

