-- ==== Sys2Proof/Laws/PerInstr.lean ====
section
/-! SUPPORT. Statements about every instruction as syntax, one lemma per constructor: the family nibble of an instruction's word is the one the opcode map gives it (spec/30_encoding.md R91, R95). -/

namespace Sys2Proof.Laws.Family

/-- The high nibble of an operation's pattern (R95). -/
def nibble : Instr → Nibble
  | .sys _ => 0x0
  | .cls => 0x0
  | .ret => 0x0
  | .jp _ => 0x1
  | .call _ => 0x2
  | .seImm _ _ => 0x3
  | .sneImm _ _ => 0x4
  | .seReg _ _ => 0x5
  | .ldImm _ _ => 0x6
  | .addImm _ _ => 0x7
  | .ldReg _ _ => 0x8
  | .orReg _ _ => 0x8
  | .andReg _ _ => 0x8
  | .xorReg _ _ => 0x8
  | .addReg _ _ => 0x8
  | .subReg _ _ => 0x8
  | .shr _ _ => 0x8
  | .subnReg _ _ => 0x8
  | .shl _ _ => 0x8
  | .sneReg _ _ => 0x9
  | .ldI _ => 0xA
  | .jpV0 _ => 0xB
  | .rnd _ _ => 0xC
  | .drw _ _ _ => 0xD
  | .skp _ => 0xE
  | .sknp _ => 0xE
  | .ldVxDt _ => 0xF
  | .ldVxK _ => 0xF
  | .ldDtVx _ => 0xF
  | .ldStVx _ => 0xF
  | .addI _ => 0xF
  | .ldF _ => 0xF
  | .ldB _ => 0xF
  | .ldMemVx _ => 0xF
  | .ldVxMem _ => 0xF

/-- The word of a well-formed instruction lies in its family. -/
def Statement (i : Instr) : Prop := i.wellFormed = true → (encode i).extractLsb' 12 4 = nibble i

theorem sys (nnn : Addr12) : Statement (.sys nnn) := fun _ => op_encodeFA ..
theorem cls : Statement (.cls) := fun _ => rfl
theorem ret : Statement (.ret) := fun _ => rfl
theorem jp (nnn : Addr12) : Statement (.jp nnn) := fun _ => op_encodeFA ..
theorem call (nnn : Addr12) : Statement (.call nnn) := fun _ => op_encodeFA ..
theorem seImm (x : Reg) (kk : Byte) : Statement (.seImm x kk) := fun _ => op_encodeFXK ..
theorem sneImm (x : Reg) (kk : Byte) : Statement (.sneImm x kk) := fun _ => op_encodeFXK ..
theorem seReg (x y : Reg) : Statement (.seReg x y) := fun _ => op_encodeFXY ..
theorem ldImm (x : Reg) (kk : Byte) : Statement (.ldImm x kk) := fun _ => op_encodeFXK ..
theorem addImm (x : Reg) (kk : Byte) : Statement (.addImm x kk) := fun _ => op_encodeFXK ..
theorem ldReg (x y : Reg) : Statement (.ldReg x y) := fun _ => op_encodeFXY ..
theorem orReg (x y : Reg) : Statement (.orReg x y) := fun _ => op_encodeFXY ..
theorem andReg (x y : Reg) : Statement (.andReg x y) := fun _ => op_encodeFXY ..
theorem xorReg (x y : Reg) : Statement (.xorReg x y) := fun _ => op_encodeFXY ..
theorem addReg (x y : Reg) : Statement (.addReg x y) := fun _ => op_encodeFXY ..
theorem subReg (x y : Reg) : Statement (.subReg x y) := fun _ => op_encodeFXY ..
theorem shr (x y : Reg) : Statement (.shr x y) := fun _ => op_encodeFXY ..
theorem subnReg (x y : Reg) : Statement (.subnReg x y) := fun _ => op_encodeFXY ..
theorem shl (x y : Reg) : Statement (.shl x y) := fun _ => op_encodeFXY ..
theorem sneReg (x y : Reg) : Statement (.sneReg x y) := fun _ => op_encodeFXY ..
theorem ldI (nnn : Addr12) : Statement (.ldI nnn) := fun _ => op_encodeFA ..
theorem jpV0 (nnn : Addr12) : Statement (.jpV0 nnn) := fun _ => op_encodeFA ..
theorem rnd (x : Reg) (kk : Byte) : Statement (.rnd x kk) := fun _ => op_encodeFXK ..
theorem drw (x y : Reg) (n : Nibble) : Statement (.drw x y n) := fun _ => op_encodeFXY ..
theorem skp (x : Reg) : Statement (.skp x) := fun _ => op_encodeFXK ..
theorem sknp (x : Reg) : Statement (.sknp x) := fun _ => op_encodeFXK ..
theorem ldVxDt (x : Reg) : Statement (.ldVxDt x) := fun _ => op_encodeFXK ..
theorem ldVxK (x : Reg) : Statement (.ldVxK x) := fun _ => op_encodeFXK ..
theorem ldDtVx (x : Reg) : Statement (.ldDtVx x) := fun _ => op_encodeFXK ..
theorem ldStVx (x : Reg) : Statement (.ldStVx x) := fun _ => op_encodeFXK ..
theorem addI (x : Reg) : Statement (.addI x) := fun _ => op_encodeFXK ..
theorem ldF (x : Reg) : Statement (.ldF x) := fun _ => op_encodeFXK ..
theorem ldB (x : Reg) : Statement (.ldB x) := fun _ => op_encodeFXK ..
theorem ldMemVx (x : Reg) : Statement (.ldMemVx x) := fun _ => op_encodeFXK ..
theorem ldVxMem (x : Reg) : Statement (.ldVxMem x) := fun _ => op_encodeFXK ..

end Sys2Proof.Laws.Family
end

