-- ==== Sys2Proof/Laws/Transfer.lean ====
section
/-! SUPPORT. What each shared operation over registers, stack, operands, flags and timers can do, once each. -/

namespace Sys2Proof.Machine

/-! ### Register loads -/

/-- Everything `loadRegs` can do on a list without repeats: it writes registers alone, each whose address exists; it is done where the last address exists, and otherwise raises the first failing address (spec/20_memory.md R78). -/
theorem loadRegs_spec (rs : List Reg) : rs.Nodup → ∀ (a : Nat) (s : State),
    ∃ v : Vector Byte 16,
      (∀ (k : Nat) (h : k < rs.length), a + k < 4096 → v[rs[k]] = s.byteAt (a + k)) ∧
      (∀ r : Reg, (∀ (k : Nat) (h : k < rs.length), a + k < 4096 → rs[k] ≠ r) → v[r] = s.v[r]) ∧
      State.loadRegs a rs s =
        if a + rs.length ≤ 4096 ∨ rs = [] then .done () { s with v := v }
        else .raised (outOfRange (max a 4096)) { s with v := v } := by
  induction rs with
  | nil =>
    intro _ a s
    exact ⟨s.v, by simp, by simp, by simp [State.loadRegs]⟩
  | cons x xs ih =>
    intro hnd a s
    obtain ⟨hx, hxs⟩ := List.nodup_cons.1 hnd
    by_cases ha : a < 4096
    · obtain ⟨v, hread, hkeep, hload⟩ := ih hxs (a + 1) (s.setV x (s.byteAt a))
      refine ⟨v, ?_, ?_, ?_⟩
      · intro k hk hak
        cases k with
        | zero =>
          have h0 : v[x] = (s.setV x (s.byteAt a)).v[x] := by
            refine hkeep x fun j hj _ hxj => hx ?_
            rw [← hxj]
            exact List.getElem_mem hj
          simpa [State.setV] using h0
        | succ j =>
          have := hread j (by simpa using hk) (by omega)
          rw [Nat.add_assoc, Nat.add_comm 1] at this
          exact this
      · intro r hr
        have hxr : x ≠ r := hr 0 (by simp) (by omega)
        rw [hkeep r fun j hj haj => hr (j + 1) (by simpa using hj) (by omega)]
        exact setV_getV_ne s _ hxr
      · rw [State.loadRegs, memRead_ok ha]
        refine Eq.trans hload ?_
        have hmax : max (a + 1) 4096 = max a 4096 := by omega
        rw [hmax]
        by_cases hx : xs = []
        · subst hx
          simp only [or_true, if_true, List.length_singleton]
          rw [if_pos (Or.inl (by omega))]
          rfl
        · have heq : (a + 1 + xs.length ≤ 4096) = (a + (xs.length + 1) ≤ 4096) := by
            rw [Nat.add_assoc, Nat.add_comm 1]
          simp only [hx, or_false, List.length_cons, reduceCtorEq]
          rw [if_congr (iff_of_eq heq) rfl rfl]
          rfl
    · refine ⟨s.v, ?_, fun _ _ => rfl, ?_⟩
      · intro k _ hk
        omega
      · rw [State.loadRegs, memRead_error (by omega), if_neg (by simp; omega), Nat.max_eq_left (by omega)]

/-! ### Register ranges -/

theorem regsUpTo_length (x : Reg) : (regsUpTo x).length = x.val + 1 := by
  simp [regsUpTo, allRegs]
  omega

theorem regsUpTo_getElem (x : Reg) (k : Nat) (h : k < (regsUpTo x).length) :
    (regsUpTo x)[k] = ⟨k, by rw [regsUpTo_length] at h; omega⟩ := by
  have hk : k < 16 := by rw [regsUpTo_length] at h; omega
  have hall : ∀ j : Fin 16, allRegs[j.val]'(by simp [allRegs]) = j := by decide
  simpa [regsUpTo] using hall ⟨k, hk⟩

theorem regsUpTo_nodup (x : Reg) : (regsUpTo x).Nodup :=
  List.Nodup.sublist (List.take_sublist _ _) (by decide)

theorem regsUpTo_ne_nil (x : Reg) : regsUpTo x ≠ [] := by
  intro h
  have := regsUpTo_length x
  simp [h] at this

/-! ### Call stack -/

theorem push_some {s : State} (w : Word) (h : s.sp.val < 16) :
    s.push w = some { s with stack := s.stack.set s.sp.val w h, sp := ⟨s.sp.val + 1, by omega⟩ } := dif_pos h

theorem push_none {s : State} (w : Word) (h : s.sp.val = 16) : s.push w = none := dif_neg (by omega)

theorem pop_some {s : State} (k : Fin 16) (h : s.sp.val = k.val + 1) :
    s.pop = some (s.stack[k], { s with sp := ⟨k.val, by omega⟩ }) := by
  simp [State.pop, h]

theorem pop_none {s : State} (h : s.sp.val = 0) : s.pop = none := dif_neg (by omega)

/-! ### Skips, flags, operands -/

theorem skipIf_eq (c : Bool) (s : State) : s.skipIf c = s.setPc (if c then s.pc + 2 else s.pc) := by
  cases c <;> rfl

/-- VF after a result with a flag is the flag, whatever the destination (spec/41_alu.md R141). -/
theorem setWithFlag_getV_vF (s : State) (x : Reg) (r : Byte) (f : Bool) : (s.setWithFlag x r f).getV vF = flagByte f :=
  setV_getV_self ..

/-- The destination after a result with a flag, where it is not VF. -/
theorem setWithFlag_getV_dest (s : State) {x : Reg} (r : Byte) (f : Bool) (h : x ≠ vF) :
    (s.setWithFlag x r f).getV x = r := by
  rw [State.setWithFlag, State.setFlag, setV_getV_ne _ _ (Ne.symm h), setV_getV_self]

/-- Every other register after a result with a flag. -/
theorem setWithFlag_getV_other (s : State) {x q : Reg} (r : Byte) (f : Bool) (hx : q ≠ x) (hv : q ≠ vF) :
    (s.setWithFlag x r f).getV q = s.getV q := by
  rw [State.setWithFlag, State.setFlag, setV_getV_ne _ _ (Ne.symm hv), setV_getV_ne _ _ (Ne.symm hx)]

/-- A result with a flag writes registers alone. -/
theorem setWithFlag_eq (s : State) (x : Reg) (r : Byte) (f : Bool) :
    s.setWithFlag x r f = { s with v := (s.setWithFlag x r f).v } := rfl

theorem flagByte_toNat (f : Bool) : (flagByte f).toNat = if f then 1 else 0 := by cases f <;> rfl

theorem fontAddr_ok {g : Byte} (h : g.toNat < 16) : fontAddr g = .ok (BitVec.ofNat 16 (fontBase + 5 * g.toNat)) := if_pos h

theorem fontAddr_error {g : Byte} (h : 16 ≤ g.toNat) : fontAddr g = .error (.invalidFontIndex g) := if_neg (by omega)

/-- The key of a register value, where it names one (spec/44_input_timers.md R211). -/
theorem keyOf_ok {c : Config} {b : Byte} (h : b.toNat < 16 ∨ c.keyIndexMode = .mask) : keyOf c b = .ok (b.toNat % 16) := by
  by_cases hb : b.toNat < 16
  · simp [keyOf, hb, Nat.mod_eq_of_lt hb]
  · simp [keyOf, hb, h.resolve_left hb]

theorem keyOf_error {c : Config} {b : Byte} (h : 16 ≤ b.toNat) (hc : c.keyIndexMode = .fault) :
    keyOf c b = .error (.invalidKeyIndex b) := by
  simp [keyOf, Nat.not_lt.2 h, hc]

/-- The next key is the least one down (R212). -/
theorem nextKey_some {s : State} {k : Nat} (h : s.keys.getLsbD k = true) (hleast : ∀ j, j < k → s.keys.getLsbD j = false) :
    s.nextKey = some k := by
  have hk : k < 16 := by
    by_contra hge
    rw [BitVec.getLsbD_of_ge _ _ (by omega)] at h
    simp at h
  have hall : allKeys = List.range 16 := by decide
  rw [State.nextKey, hall, List.find?_range_eq_some]
  exact ⟨h, by simpa using hk, fun j hj => by simp [State.isPressed, hleast j hj]⟩

theorem nextKey_none {s : State} (h : s.keys = 0) : s.nextKey = none := by
  simp [State.nextKey, State.isPressed, h]

/-- `nextKey` answers a key number below 16 or nothing. -/
theorem nextKey_lt {s : State} {k : Nat} (h : s.nextKey = some k) : k < 16 := by
  have hmem := List.mem_of_find?_eq_some h
  have hall : ∀ j ∈ allKeys, j < 16 := by decide
  exact hall k hmem

/-- The optional increment writes `I` alone. -/
theorem bumpIndex_eq (s : State) (x : Reg) :
    s.bumpIndex x = s.setI (if s.cfg.loadStoreIncrement = .xPlus1 then BitVec.ofNat 16 (s.i.toNat + x.val + 1) else s.i) := by
  unfold State.bumpIndex
  split <;> simp_all [State.setI]

/-! ### Timers -/

theorem tickDown_toNat (t : Byte) : (tickDown t).toNat = t.toNat - 1 := by
  unfold tickDown
  split
  · simp_all
  · rename_i h
    have : t.toNat ≠ 0 := fun h0 => h (BitVec.eq_of_toNat_eq (by simpa using h0))
    have := t.isLt
    rw [BitVec.toNat_sub]
    simp
    omega

/-- `n` Ticks take `n`, floor at zero (spec/60_exceptions.md R238). -/
theorem countDown_toNat (n : Nat) (t : Byte) : (countDown n t).toNat = t.toNat - n := by
  induction n generalizing t with
  | zero => rfl
  | succ n ih => rw [countDown, ih, tickDown_toNat]; omega

/-- `n + 1` Ticks are one Tick and `n` more. -/
theorem ticks_succ (n : Nat) (s : State) : State.ticks (n + 1) s = State.ticks n s.tick := rfl

end Sys2Proof.Machine
end

