-- ==== Sys2Proof/Laws/Step.lean ====
section
/-! SUPPORT. The Step: what the fetch answers, and the three ways a Step goes (spec/40_control_flow.md R120, R121). -/

namespace Sys2Proof.Machine

theorem fetch_ok {s : State} (h : s.pc.toNat < 4095) :
    s.fetch = .ok (s.byteAt s.pc.toNat ++ s.byteAt (s.pc.toNat + 1)) := memReadWord_ok (by omega)

theorem fetch_error {s : State} (h : 4095 ≤ s.pc.toNat) : s.fetch = .error (outOfRange (max s.pc.toNat 4096)) :=
  memReadWord_error (by omega)

/-- Where the fetch answers a word, it is in range. -/
theorem fetch_bound {s : State} {w : Word} (h : s.fetch = .ok w) : s.pc.toNat < 4095 := by
  by_contra hge
  rw [fetch_error (by omega)] at h
  cases h

theorem latch_fetch (keys : BitVec 16) (rand : Byte) (s : State) : (s.latch keys rand).fetch = s.fetch := rfl

/-- Everything a Step can do: fail at the fetch, meet an illegal word, or run the instruction. -/
theorem engineStep_cases (execute : Instr → State → Outcome) (keys : BitVec 16) (rand : Byte) (s : State) :
    (∃ e, s.fetch = .error e ∧ engineStep execute keys rand s = .next ((s.latch keys rand).raise e)) ∨
    (∃ w e, s.fetch = .ok w ∧ decode w = .error e ∧
      engineStep execute keys rand s = .next ((s.latch keys rand).advance.raise (.unknownOpcode w))) ∨
    (∃ w i, s.fetch = .ok w ∧ decode w = .ok i ∧
      engineStep execute keys rand s = execute i (s.latch keys rand).advance) := by
  unfold engineStep
  rw [latch_fetch]
  cases hf : s.fetch with
  | error e => exact Or.inl ⟨e, rfl, rfl⟩
  | ok w =>
    cases hd : decode w with
    | error e => exact Or.inr (Or.inl ⟨w, e, rfl, hd, by simp [hd]⟩)
    | ok i => exact Or.inr (Or.inr ⟨w, i, rfl, hd, by simp [hd]⟩)

/-- A placed word is what the next fetch reads, where PC addresses a whole word. -/
theorem fetch_withFetchWord (s : State) (nbits w : Nat) (h : s.pc.toNat < 4095) :
    (s.withFetchWord nbits w).fetch = .ok (highByte (tableWord nbits w) ++ lowByte (tableWord nbits w)) := by
  have h1 : s.pc.toNat < memSize := by simp only [memSize]; omega
  have h2 : s.pc.toNat + 1 < memSize := by simp only [memSize]; omega
  have hlow : ∀ b : Nat, (s.withFetchWord nbits w).byteAt b =
      if b = s.pc.toNat + 1 then lowByte (tableWord nbits w)
      else if b = s.pc.toNat then highByte (tableWord nbits w) else s.byteAt b := by
    intro b
    rw [State.withFetchWord, State.pokeWord, State.poke, if_pos h2, byteAt_write, State.poke, if_pos h1, byteAt_write]
  have hpc : (s.withFetchWord nbits w).pc = s.pc := by
    rw [State.withFetchWord, State.pokeWord, State.poke, if_pos h2, State.poke, if_pos h1]
    rfl
  rw [fetch_ok (by rw [hpc]; exact h), hpc, hlow, hlow]
  simp

end Sys2Proof.Machine
end

