-- ==== Sys2Proof/Tests/Slice0.lean ====
section
/-! SUPPORT. The model's own tests: the well-formedness smoke, a word for every constructor's decoding, one Step per instruction on vectors of spec/95_test_vectors.md, and a witness for every statement that has hypotheses. -/

namespace Sys2Proof.Tests

open Sys2Proof Sys2Proof.Machine Sys2Proof.Safety

/-! ### Helpers -/

/-- The outcome is a next state that passes `p`. -/
def answers (o : Outcome) (p : State → Bool) : Bool :=
  match o with
  | .next t => p t
  | .fault _ => false
  | .refused _ => false

/-- `s` with the registers of the list written. -/
def withV (s : State) : List (Reg × Byte) → State
  | [] => s
  | (r, b) :: l => withV (s.setV r b) l

/-- `s` with the bytes of the list stored from `a` on. -/
def withMem (s : State) (a : Nat) : List Byte → State
  | [] => s
  | b :: l => withMem (s.poke a b) (a + 1) l

/-- One Step on the word `w` placed at PC. -/
def runWith (keys : BitVec 16) (rand : Byte) (w : Word) (s : State) : Outcome :=
  transact (.step keys rand) (s.pokeWord s.pc.toNat w)

/-- One Step on the word `w` with no key and the random byte 0. -/
def run (w : Word) (s : State) : Outcome := runWith 0 0 w s

/-- The engine's default state, and one with every field of `cfg` at its other value. -/
def dflt : State := State.reset

/-- Every quirk of R8 at its other legal value. -/
def otherConfig : Config :=
  { defaultConfig with
    shiftSource := .vy, jumpOffset := .vx, indexOverflow := .bit3, loadStoreIncrement := .xPlus1,
    drawVertical := .clip, fontIndexMode := .mask, keyIndexMode := .mask }

/-- The reset state under `otherConfig`. -/
def other : State := State.resetWith otherConfig

/-- `s` with `SP = 16` and every slot 0x202 (vector CF-5). -/
def fullStack (s : State) : State := { s with sp := 16, stack := Vector.replicate 16 0x202 }

/-! ### Well-formedness -/

theorem test_wellFormed_refuses_sys_0E0 : (Instr.sys 0x0E0).wellFormed = false := by decide

theorem test_wellFormed_refuses_sys_0EE : (Instr.sys 0x0EE).wellFormed = false := by decide

theorem test_wellFormed_takes_sys_0E1 : (Instr.sys 0x0E1).wellFormed = true := by decide

/-! ### Decoding: words written out from the patterns of spec/30_encoding.md R95 -/

theorem test_decode_family0 :
    decode 0b0000000100100011#16 = .ok (.sys 0x123) ∧
    decode 0b0000000011100000#16 = .ok .cls ∧
    decode 0b0000000011101110#16 = .ok .ret ∧
    decode 0b0000000011100001#16 = .ok (.sys 0x0E1) := by
  decide

theorem test_decode_control :
    decode 0b0001001000110100#16 = .ok (.jp 0x234) ∧
    decode 0b0010001100010010#16 = .ok (.call 0x312) ∧
    decode 0b0011001100010000#16 = .ok (.seImm 3 0x10) ∧
    decode 0b0100101011110001#16 = .ok (.sneImm 10 0xF1) ∧
    decode 0b0101000100100000#16 = .ok (.seReg 1 2) ∧
    decode 0b1001001000010000#16 = .ok (.sneReg 2 1) ∧
    decode 0b1011001100000000#16 = .ok (.jpV0 0x300) := by
  decide

theorem test_decode_load_add_random :
    decode 0b0110101000111100#16 = .ok (.ldImm 10 0x3C) ∧
    decode 0b0111000111111110#16 = .ok (.addImm 1 0xFE) ∧
    decode 0b1100001100001111#16 = .ok (.rnd 3 0x0F) := by
  decide

theorem test_decode_arithmetic :
    decode 0b1000000100100000#16 = .ok (.ldReg 1 2) ∧
    decode 0b1000000100100001#16 = .ok (.orReg 1 2) ∧
    decode 0b1000000100100010#16 = .ok (.andReg 1 2) ∧
    decode 0b1000000100100011#16 = .ok (.xorReg 1 2) ∧
    decode 0b1000000100100100#16 = .ok (.addReg 1 2) ∧
    decode 0b1000000100100101#16 = .ok (.subReg 1 2) ∧
    decode 0b1000000100100110#16 = .ok (.shr 1 2) ∧
    decode 0b1000000100100111#16 = .ok (.subnReg 1 2) ∧
    decode 0b1000000100101110#16 = .ok (.shl 1 2) := by
  decide

theorem test_decode_index_draw :
    decode 0b1010001100000001#16 = .ok (.ldI 0x301) ∧
    decode 0b1101000100100101#16 = .ok (.drw 1 2 5) := by
  decide

theorem test_decode_keys :
    decode 0b1110010110011110#16 = .ok (.skp 5) ∧
    decode 0b1110010110100001#16 = .ok (.sknp 5) := by
  decide

theorem test_decode_familyF :
    decode 0b1111001100000111#16 = .ok (.ldVxDt 3) ∧
    decode 0b1111001100001010#16 = .ok (.ldVxK 3) ∧
    decode 0b1111001100010101#16 = .ok (.ldDtVx 3) ∧
    decode 0b1111001100011000#16 = .ok (.ldStVx 3) ∧
    decode 0b1111001100011110#16 = .ok (.addI 3) ∧
    decode 0b1111001100101001#16 = .ok (.ldF 3) ∧
    decode 0b1111001100110011#16 = .ok (.ldB 3) ∧
    decode 0b1111001101010101#16 = .ok (.ldMemVx 3) ∧
    decode 0b1111001101100101#16 = .ok (.ldVxMem 3) := by
  decide

/-- Vectors DEC-4 to DEC-8. -/
theorem test_decode_illegal :
    [0x5121#16, 0x8128#16, 0x912F#16, 0xE19F#16, 0xF1FF#16].all
      (fun w => decide (decode w = .error (.unknownOpcode w))) = true := by
  decide

/-- The encoder against words of the vectors. -/
theorem test_encode :
    encode .ret = 0x00EE ∧ encode (.sneImm 4 0x11) = 0x4411 ∧ encode (.shl 1 2) = 0x812E ∧ encode (.drw 15 15 1) = 0xDFF1 ∧
    encode (.ldVxMem 2) = 0xF265 := by
  decide

/-- Syntax lines of program L3-1 and of L1-11. -/
theorem test_asm : (Instr.ldImm 10 0x3C).asm = "LD VA, 0x3C" ∧ (Instr.jp 0x20C).asm = "JP 0x20C" := by decide

/-! ### One Step per instruction, expected results from spec/95_test_vectors.md (L2) -/

/-- Vector DEC-2. -/
theorem test_sys : answers (run 0x00E1 dflt)
    (fun t => t.pc == 0x202 && t.res == .ok) = true := by decide

/-- Vector CF-3. -/
theorem test_ret : answers (run 0x00EE { dflt with pc := 0x212, sp := 1, stack := (Vector.replicate 16 0).set 0 0x206 })
    (fun t => t.pc == 0x206 && t.sp == 0 && t.res == .ok) = true := by decide

/-- Vector CF-4. -/
theorem test_ret_underflow : answers (run 0x00EE dflt)
    (fun t => t.pc == 0x202 && t.res == .err .stackUnderflow && t.sp == 0) = true := by decide

/-- Vector CF-1. -/
theorem test_jp : answers (run 0x1234 dflt)
    (fun t => t.pc == 0x234 && t.res == .ok) = true := by decide

/-- Vector CF-2. -/
theorem test_call : answers (run 0x2210 { dflt with pc := 0x204 })
    (fun t => t.pc == 0x210 && t.sp == 1 && t.stack[0] == 0x206) = true := by decide

/-- Vector CF-5. -/
theorem test_call_overflow : answers (run 0x2300 (fullStack dflt))
    (fun t => t.pc == 0x202 && t.res == .err .stackOverflow && t.sp == 16) = true := by decide

/-- Vector CF-6. -/
theorem test_seImm_taken : answers (run 0x3310 (withV dflt [(3, 0x10)]))
    (fun t => t.pc == 0x204) = true := by decide

/-- Vector CF-7. -/
theorem test_seImm_not_taken : answers (run 0x3310 (withV dflt [(3, 0x11)]))
    (fun t => t.pc == 0x202) = true := by decide

/-- Vector CF-8. -/
theorem test_sneImm_taken : answers (run 0x4311 (withV dflt [(3, 0x10)]))
    (fun t => t.pc == 0x204) = true := by decide

/-- Vector CF-9. -/
theorem test_sneImm_not_taken : answers (run 0x4310 (withV dflt [(3, 0x10)]))
    (fun t => t.pc == 0x202) = true := by decide

/-- Vector CF-10. -/
theorem test_seReg_taken : answers (run 0x5120 (withV dflt [(1, 7), (2, 7)]))
    (fun t => t.pc == 0x204) = true := by decide

/-- Vector CF-11. -/
theorem test_seReg_not_taken : answers (run 0x5120 (withV dflt [(1, 7), (2, 8)]))
    (fun t => t.pc == 0x202) = true := by decide

/-- Vector CF-12. -/
theorem test_sneReg_taken : answers (run 0x9120 (withV dflt [(1, 7), (2, 8)]))
    (fun t => t.pc == 0x204) = true := by decide

/-- Vector CF-13. -/
theorem test_sneReg_not_taken : answers (run 0x9120 (withV dflt [(1, 7), (2, 7)]))
    (fun t => t.pc == 0x202) = true := by decide

/-- Vector CF-16. -/
theorem test_jpV0 : answers (run 0xBFFF (withV dflt [(0, 0xFF)]))
    (fun t => t.pc == 0x10FE && t.res == .ok) = true := by decide

/-- Vector CF-15. -/
theorem test_jpV0_vx : answers (run 0xB300 (withV other [(0, 5), (3, 0x10)]))
    (fun t => t.pc == 0x310) = true := by decide

/-- Vector LD-1, L1-11. -/
theorem test_ldImm : answers (run 0x6A3C dflt)
    (fun t => t.getV 10 == 0x3C && t.pc == 0x202 && t.res == .ok) = true := by decide

/-- Vector ADDI-3. -/
theorem test_addImm : answers (run 0x7101 (withV dflt [(1, 0xFF), (15, 1)]))
    (fun t => t.getV 1 == 0 && t.getV 15 == 1) = true := by decide

/-- Vector MOV-1. -/
theorem test_ldReg : answers (run 0x8120 (withV dflt [(2, 0x7E)]))
    (fun t => t.getV 1 == 0x7E) = true := by decide

/-- Vector OR-1. -/
theorem test_orReg : answers (run 0x8121 (withV dflt [(1, 0x0F), (2, 0xF0), (15, 1)]))
    (fun t => t.getV 1 == 0xFF && t.getV 15 == 1) = true := by decide

/-- Vector AND-1. -/
theorem test_andReg : answers (run 0x8122 (withV dflt [(1, 0x3C), (2, 0x0F)]))
    (fun t => t.getV 1 == 0x0C) = true := by decide

/-- Vector XOR-1. -/
theorem test_xorReg : answers (run 0x8123 (withV dflt [(1, 0x3C), (2, 0x0F)]))
    (fun t => t.getV 1 == 0x33) = true := by decide

/-- Vector ADD-3. -/
theorem test_addReg : answers (run 0x8124 (withV dflt [(1, 0x7F), (2, 0x80), (15, 1)]))
    (fun t => t.getV 1 == 0xFF && t.getV 15 == 0) = true := by decide

/-- Vector ADD-4. -/
theorem test_addReg_flag_last : answers (run 0x8F14 (withV dflt [(15, 0xFF), (1, 1)]))
    (fun t => t.getV 15 == 1) = true := by decide

/-- Vector SUB-1. -/
theorem test_subReg : answers (run 0x8125 (withV dflt [(1, 0x10), (2, 0x20)]))
    (fun t => t.getV 1 == 0xF0 && t.getV 15 == 0) = true := by decide

/-- Vector SUB-2. -/
theorem test_subReg_equal : answers (run 0x8125 (withV dflt [(1, 0x20), (2, 0x20)]))
    (fun t => t.getV 1 == 0 && t.getV 15 == 1) = true := by decide

/-- Vector SUBN-1. -/
theorem test_subnReg : answers (run 0x8127 (withV dflt [(1, 0x10), (2, 0x30)]))
    (fun t => t.getV 1 == 0x20 && t.getV 15 == 1) = true := by decide

/-- Vector SHR-1. -/
theorem test_shr : answers (run 0x8106 (withV dflt [(1, 5)]))
    (fun t => t.getV 1 == 2 && t.getV 15 == 1) = true := by decide

/-- Vector SHR-3. -/
theorem test_shr_vy : answers (run 0x8126 (withV other [(2, 0x81)]))
    (fun t => t.getV 1 == 0x40 && t.getV 15 == 1) = true := by decide

/-- Vector SHL-3. -/
theorem test_shl : answers (run 0x810E (withV dflt [(1, 0x7F), (15, 1)]))
    (fun t => t.getV 1 == 0xFE && t.getV 15 == 0) = true := by decide

/-- Vector SHL-4. -/
theorem test_shl_vy : answers (run 0x812E (withV other [(1, 1), (2, 0xC0)]))
    (fun t => t.getV 1 == 0x80 && t.getV 15 == 1) = true := by decide

/-- Vector RND-1. -/
theorem test_rnd : answers (runWith 0 0xA7 0xC30F dflt)
    (fun t => t.getV 3 == 0x07) = true := by decide

/-- Vector IDX-1. -/
theorem test_ldI : answers (run 0xA300 dflt)
    (fun t => t.i == 0x300 && t.pc == 0x202 && t.res == .ok) = true := by decide

/-- Vector IDX-4. -/
theorem test_addI : answers (run 0xF11E { withV dflt [(1, 1)] with i := 0xFFFF })
    (fun t => t.i == 0 && t.getV 15 == 1) = true := by decide

/-- Vector IDX-3b. -/
theorem test_addI_bit3 : answers (run 0xF11E { withV other [(1, 8)] with i := 0x0FF0 })
    (fun t => t.i == 0x0FF8 && t.getV 15 == 1) = true := by decide

/-- Vector FNT-2. -/
theorem test_ldF : answers (run 0xF229 (withV dflt [(2, 0x0F)]))
    (fun t => t.i == 0x09B) = true := by decide

/-- Vector FNT-4. -/
theorem test_ldF_fault : answers (run 0xF229 { withV dflt [(2, 0x10)] with i := 0x123 })
    (fun t => t.i == 0x123 && t.res == .err (.invalidFontIndex 0x10)) = true := by decide

/-- Vector BCD-1. -/
theorem test_ldB : answers (run 0xF333 { withV dflt [(3, 152)] with i := 0x300 })
    (fun t => t.byteAt 0x300 == 1 && t.byteAt 0x301 == 5 && t.byteAt 0x302 == 2) = true := by decide

/-- Vector BCD-5. -/
theorem test_ldB_past_end : answers (run 0xF333 { withV dflt [(3, 255)] with i := 0xFFE })
    (fun t => t.byteAt 0xFFE == 2 && t.byteAt 0xFFF == 5 && t.res == .err (.memoryOutOfRange 0x1000)) = true := by decide

/-- Vector STR-2. -/
theorem test_ldMemVx : answers (run 0xF155 { withV other [(0, 1), (1, 2), (2, 3)] with i := 0x300 })
    (fun t => t.byteAt 0x300 == 1 && t.byteAt 0x301 == 2 && t.byteAt 0x302 == 0 && t.i == 0x302) = true := by decide

/-- Vector STR-4. -/
theorem test_ldMemVx_past_end : answers (run 0xF255 { withV other [(0, 1), (1, 2), (2, 3)] with i := 0xFFF })
    (fun t => t.byteAt 0xFFF == 1 && t.i == 0xFFF && t.res == .err (.memoryOutOfRange 0x1000)) = true := by decide

/-- Vector LDR-1. -/
theorem test_ldVxMem : answers (run 0xF265 { withMem dflt 0x300 [1, 5, 2] with i := 0x300 })
    (fun t => t.getV 0 == 1 && t.getV 1 == 5 && t.getV 2 == 2 && t.i == 0x300) = true := by decide

/-- Vector LDR-4. -/
theorem test_ldVxMem_past_end : answers (run 0xF265 { withMem (withV other [(2, 0x55)]) 0xFFE [7, 8] with i := 0xFFE })
    (fun t => t.getV 0 == 7 && t.getV 1 == 8 && t.getV 2 == 0x55 && t.i == 0xFFE && t.res == .err (.memoryOutOfRange 0x1000)) = true := by decide

/-- Vector CLS-1. -/
theorem test_cls : answers (run 0x00E0 (withV { dflt with fb := Frame.flip dflt.fb 31 63 } [(15, 1)]))
    (fun t => !Frame.pixel t.fb 31 63 && !Frame.pixel t.fb 0 0 && t.getV 15 == 1) = true := by decide

/-- Vector DRW-7. -/
theorem test_drw_wrap : answers (run 0xD012 { withMem (withV dflt [(1, 31)]) 0x300 [0x80, 0x80] with i := 0x300 })
    (fun t => Frame.pixel t.fb 31 0 && Frame.pixel t.fb 0 0 && !Frame.pixel t.fb 0 1 && !Frame.pixel t.fb 1 0 && t.getV 15 == 0) = true := by decide

/-- Vector DRW-8. -/
theorem test_drw_past_end : answers (run 0xD012 { withMem (withV dflt [(15, 5)]) 0xFFF [0x80] with i := 0xFFF })
    (fun t => Frame.pixel t.fb 0 0 && !Frame.pixel t.fb 1 0 && t.getV 15 == 5 && t.res == .err (.memoryOutOfRange 0x1000)) = true := by decide

/-- Vector KEY-1. -/
theorem test_skp : answers (runWith 0x0020 0 0xE59E (withV dflt [(5, 5)]))
    (fun t => t.pc == 0x204) = true := by decide

/-- Vector KEY-5. -/
theorem test_skp_fault : answers (runWith 0x0001 0 0xE59E (withV dflt [(5, 0x10)]))
    (fun t => t.pc == 0x202 && t.res == .err (.invalidKeyIndex 0x10)) = true := by decide

/-- Vector KEY-3. -/
theorem test_sknp : answers (runWith 0 0 0xE5A1 (withV dflt [(5, 5)]))
    (fun t => t.pc == 0x204) = true := by decide

/-- Vector KEY-7. -/
theorem test_sknp_mask : answers (runWith 0x0020 0 0xE5A1 (withV other [(5, 0x15)]))
    (fun t => t.pc == 0x202 && t.res == .ok) = true := by decide

/-- Vector WAIT-1. -/
theorem test_ldVxK_waits : answers (runWith 0 0 0xF30A dflt)
    (fun t => t.pc == 0x200 && t.wm == .awaitingKey && t.res == .ok) = true := by decide

/-- Vector WAIT-2. -/
theorem test_ldVxK_takes_least : answers (runWith 0x0220 0 0xF30A dflt)
    (fun t => t.getV 3 == 5 && t.pc == 0x202 && t.wm == .running) = true := by decide

/-- Vector TMR-2. -/
theorem test_ldVxDt : answers (run 0xF307 { dflt with dt := 0x3C })
    (fun t => t.getV 3 == 0x3C) = true := by decide

/-- Vector TMR-1. -/
theorem test_ldDtVx : answers (run 0xF315 (withV dflt [(3, 0x3C)]))
    (fun t => t.dt == 0x3C) = true := by decide

/-- Vector TMR-3. -/
theorem test_ldStVx : answers (run 0xF318 (withV dflt [(3, 2)]))
    (fun t => t.st == 2 && t.soundOn) = true := by decide

/-! ### The other transactions, the fetch and the fixed interface -/

/-- Vector TCK-4. -/
theorem test_tick : answers (transact .tick { dflt with wm := .awaitingKey, res := .err .stackOverflow, dt := 5 })
    (fun t => t.dt == 4 && t.st == 0 && t.wm == .awaitingKey && t.res == .err .stackOverflow && t.pc == 0x200) = true := by decide

/-- Vector ROM-5. -/
theorem test_loadRom : answers (transact (.loadRom [0x60]) (withMem dflt 0x200 [0x12, 0x34]))
    (fun t => t.byteAt 0x200 == 0x60 && t.byteAt 0x201 == 0x34) = true := by decide

/-- Vector RST-1. -/
theorem test_reset : answers (transact .reset { fullStack (withMem (withV dflt [(3, 9)]) 0x300 [7]) with pc := 0xFFF })
    (fun t => t.mem == [] && t.pc == 0x200 && t.byteAt 0x09C == 0x80 && t.byteAt 0x0A0 == 0) = true := by decide

/-- Vector DEC-9. -/
theorem test_fetch_past_end : answers (transact (.step 0 0) { dflt with pc := 0xFFF })
    (fun t => t.pc == 0xFFF && t.res == .err (.memoryOutOfRange 0x1000)) = true := by decide

/-- Vector DEC-4. -/
theorem test_illegal_word : answers (run 0x5121 dflt)
    (fun t => t.pc == 0x202 && t.res == .err (.unknownOpcode 0x5121)) = true := by decide

/-- `step` from reset runs the word that `withFetchWord` places, whatever the host's free turn is (vector LD-1). -/
theorem test_step_runs_placed_word :
    answers (step (State.reset.withFetchWord 16 0x6A3C)) (fun t => t.getV 10 == 0x3C && t.pc == 0x202) = true := by
  rfl

/-- The table's word of `SHL V1, V2`, as the host asks for it. -/
theorem test_decodeTableWord : decodeTableWord 16 0x812E = some (.shl 1 2) ∧ decodeTableWord 16 0x8128 = none := by decide

/-- Writing an address's reset contents removes its entry, and an address order other than rising is no canonical form. -/
theorem test_memory_canonical :
    (withMem (withMem dflt 0x300 [7, 8]) 0x300 [0]).mem = [(0x301, 8)] ∧
    Memory.wf defaultConfig [(0x301, 8), (0x300, 7)] = false ∧ Memory.wf defaultConfig [(0x050, 0xF0)] = false := by
  decide

/-! ### Witnesses: concrete states and operands that meet the hypotheses of each statement, at the boundary values of each clause -/

/-- For DecodeOfEncode, beside the two SYS addresses that are no instruction of their own. -/
theorem witness_DecodeOfEncode :
    (Instr.drw 15 15 15).wellFormed = true ∧ (Instr.sys 0x0DF).wellFormed = true ∧ (Instr.sys 0x0EF).wellFormed = true ∧
    (Instr.sys 0).wellFormed = true ∧ (Instr.ldVxMem 15).wellFormed = true := by
  decide

/-- For EncodeOfDecode. -/
theorem witness_EncodeOfDecode : decode 0x0000 = .ok (.sys 0) ∧ decode 0xFF65 = .ok (.ldVxMem 15) := by decide

/-- For StepRunsDecodedInstruction, at the first and at the last address that holds a whole word (DEC-11). -/
theorem witness_StepRunsDecodedInstruction :
    (dflt.pc.toNat < 4095 ∧ decode (dflt.byteAt dflt.pc.toNat ++ dflt.byteAt (dflt.pc.toNat + 1)) = .ok (.sys 0)) ∧
    ∃ s : State, s.pc.toNat = 0xFFE ∧ decode (s.byteAt s.pc.toNat ++ s.byteAt (s.pc.toNat + 1)) = .ok (.ldImm 0 0x0A) :=
  ⟨⟨by decide, by decide⟩, { withMem dflt 0xFFE [0x60, 0x0A] with pc := 0xFFE }, by decide, by decide⟩

/-- For FetchPastEndRaises: the two cases of the reported address (DEC-9, CF-16). -/
theorem witness_FetchPastEndRaises :
    0xFFF ≤ ({ dflt with pc := 0xFFF } : State).pc.toNat ∧ 0xFFF ≤ ({ dflt with pc := 0x10FE } : State).pc.toNat := by
  decide

/-- For IllegalWordRaises (DEC-4). -/
theorem witness_IllegalWordRaises :
    ∃ s : State, s.pc.toNat < 4095 ∧ (0x5121 : Word) = s.byteAt s.pc.toNat ++ s.byteAt (s.pc.toNat + 1) ∧
      decode 0x5121 = .error (.unknownOpcode 0x5121) :=
  ⟨withMem dflt 0x200 [0x51, 0x21], by decide, by decide, by decide⟩

/-- For ErrorsComeFromTheirInstructions: each error an instruction can end with. -/
theorem witness_ErrorsComeFromTheirInstructions :
    (∃ t, exec .ret dflt = .next t ∧ t.res = .err .stackUnderflow) ∧
    (∃ t, exec (.call 0x300) (fullStack dflt) = .next t ∧ t.res = .err .stackOverflow) ∧
    (∃ t, exec (.ldF 2) (withV dflt [(2, 0x10)]) = .next t ∧ t.res = .err (.invalidFontIndex 0x10)) ∧
    (∃ t, exec (.sknp 2) (withV dflt [(2, 0x10)]) = .next t ∧ t.res = .err (.invalidKeyIndex 0x10)) ∧
    (∃ t, exec (.ldB 2) { dflt with i := 0xFFFF } = .next t ∧ t.res = .err (.memoryOutOfRange 0xFFFF)) ∧
    (∃ t, exec (.ldVxMem 1) { dflt with i := 0xFFF } = .next t ∧ t.res = .err (.memoryOutOfRange 0x1000)) ∧
    (∃ t, exec (.ldMemVx 15) { dflt with i := 0xFF1 } = .next t ∧ t.res = .err (.memoryOutOfRange 0x1000)) ∧
    ∃ t, exec (.drw 0 1 2) { dflt with i := 0xFFF } = .next t ∧ t.res = .err (.memoryOutOfRange 0x1000) :=
  ⟨⟨_, rfl, rfl⟩, ⟨_, rfl, rfl⟩, ⟨_, rfl, rfl⟩, ⟨_, rfl, rfl⟩, ⟨_, rfl, rfl⟩, ⟨_, rfl, rfl⟩, ⟨_, rfl, rfl⟩, ⟨_, rfl, rfl⟩⟩

/-- For FailingStepKeepsWaitModeAndTimers. -/
theorem witness_FailingStepKeepsWaitModeAndTimers :
    ∃ t, transact (.step 0 0) { dflt with pc := 0xFFF, dt := 3 } = .next t ∧ t.res ≠ .ok :=
  ⟨_, rfl, by decide⟩

/-- For InstructionsWriteOnlyTheirParts. -/
theorem witness_InstructionsWriteOnlyTheirParts : ∃ t, exec (.ldMemVx 15) { other with i := 0x300 } = .next t := ⟨_, rfl⟩

/-- For FlagIsZeroOrOne. -/
theorem witness_FlagIsZeroOrOne :
    ∃ t, writesFlag (.addI 1) = true ∧ exec (.addI 1) { dflt with i := 0x1000 } = .next t ∧ t.res = .ok :=
  ⟨_, rfl, rfl, rfl⟩

/-- For OnlyRndReadsRand. -/
theorem witness_OnlyRndReadsRand :
    (∀ (x : Reg) (kk : Byte), Instr.ldB 3 ≠ .rnd x kk) ∧ ∃ t, exec (.ldB 3) { dflt with i := 0x300 } = .next t :=
  ⟨fun _ _ h => (nomatch h), _, rfl⟩

/-- For WaitModeDoesNotSteer. -/
theorem witness_WaitModeDoesNotSteer : ∃ t, exec (.ldVxK 3) dflt = .next t ∧ t.wm = .awaitingKey := ⟨_, rfl, rfl⟩

/-- For JumpWithOffsetAddsRegister: both values of the quirk (CF-14, CF-15). -/
theorem witness_JumpWithOffsetAddsRegister :
    (0 : Reg).val = (if dflt.cfg.jumpOffset = .vx then (0x300 : Addr12).toNat / 256 else 0) ∧
    (15 : Reg).val = (if other.cfg.jumpOffset = .vx then (0xFFF : Addr12).toNat / 256 else 0) := by
  decide

/-- For ReturnPops: an empty stack, one entry, a full stack. -/
theorem witness_ReturnPops :
    dflt.sp.val = 0 ∧ ({ dflt with sp := 1 } : State).sp.val = (0 : Fin 16).val + 1 ∧
    (fullStack dflt).sp.val = (15 : Fin 16).val + 1 := by
  decide

/-- For CallPushes and ReturnUndoesCall: an empty stack, one free slot, a full stack. -/
theorem witness_CallPushes :
    dflt.sp.val = (0 : Fin 16).val ∧ ({ dflt with sp := 15 } : State).sp.val = (15 : Fin 16).val ∧
    (fullStack dflt).sp.val = 16 := by
  decide

/-- For ReturnUndoesCall. -/
theorem witness_ReturnUndoesCall : dflt.sp.val < 16 ∧ ({ dflt with sp := 15 } : State).sp.val < 16 := by decide

/-- For ShiftsMoveBitToFlag: both values of the quirk. -/
theorem witness_ShiftsMoveBitToFlag :
    (1 : Reg) = (if dflt.cfg.shiftSource = .vx then 1 else 2) ∧ (2 : Reg) = (if other.cfg.shiftSource = .vx then 1 else 2) := by
  decide

/-- For AddToIndexWithOverflowFlag: the 12-bit ceiling and the 16-bit wrap, and both values of the quirk (IDX-2, IDX-4). -/
theorem witness_AddToIndexWithOverflowFlag :
    0x10000 = ({ withV dflt [(1, 1)] with i := 0xFFFF } : State).i.toNat + ((withV dflt [(1, 1)]).getV 1).toNat ∧
    dflt.cfg.indexOverflow = .ceiling12 ∧
    0x1000 = ({ withV other [(1, 1)] with i := 0x0FFF } : State).i.toNat + ((withV other [(1, 1)]).getV 1).toNat ∧
    other.cfg.indexOverflow = .bit3 := by
  decide

/-- For LoadFontAddress: 15 and 16 under `fault`, 16 and 255 under `mask`. -/
theorem witness_LoadFontAddress :
    ((withV dflt [(2, 15)]).getV 2).toNat < 16 ∧
    (16 ≤ ((withV dflt [(2, 16)]).getV 2).toNat ∧ dflt.cfg.fontIndexMode = .fault) ∧
    (((withV other [(2, 255)]).getV 2).toNat = 255 ∧ other.cfg.fontIndexMode = .mask) := by
  decide

/-- For StoreBcdDigits: the last address at which all three digits fit. -/
theorem witness_StoreBcdDigits : ({ dflt with i := 0xFFD } : State).i.toNat + 2 < 4096 := by decide

/-- For StoreBcdPastEnd: two digits, one digit and none in range. -/
theorem witness_StoreBcdPastEnd :
    4096 ≤ ({ dflt with i := 0xFFE } : State).i.toNat + 2 ∧ ({ dflt with i := 0xFFE } : State).i.toNat + 1 < 4096 ∧
    4096 ≤ ({ dflt with i := 0xFFF } : State).i.toNat + 2 ∧ ({ dflt with i := 0xFFF } : State).i.toNat < 4096 ∧
    4096 ≤ ({ dflt with i := 0x1000 } : State).i.toNat + 2 := by
  decide

/-- For StoreRegisters and LoadRegisters: one register in the last byte, all sixteen in the last sixteen, both values of the quirk. -/
theorem witness_StoreRegisters :
    ({ dflt with i := 0xFFF } : State).i.toNat + (0 : Reg).val < 4096 ∧
    ({ other with i := 0xFF0 } : State).i.toNat + (15 : Reg).val < 4096 := by
  decide

/-- For StoreRegistersPastEnd and LoadRegistersPastEnd: fifteen registers in range, and none. -/
theorem witness_StoreRegistersPastEnd :
    4096 ≤ ({ dflt with i := 0xFF1 } : State).i.toNat + (15 : Reg).val ∧
    ({ dflt with i := 0xFF1 } : State).i.toNat + (14 : Reg).val < 4096 ∧
    4096 ≤ ({ dflt with i := 0x1000 } : State).i.toNat + (0 : Reg).val := by
  decide

/-- For LoadRegisters. -/
theorem witness_LoadRegisters :
    ({ dflt with i := 0x050 } : State).i.toNat + (0 : Reg).val < 4096 ∧ (0 : Reg).val < (1 : Reg).val := by
  decide

/-- For LoadRegistersPastEnd (LDR-4): two registers in range, the third not. -/
theorem witness_LoadRegistersPastEnd :
    4096 ≤ ({ dflt with i := 0xFFE } : State).i.toNat + (2 : Reg).val ∧
    ({ dflt with i := 0xFFE } : State).i.toNat + (1 : Reg).val < 4096 := by
  decide

/-- For FetchSeesStore. -/
theorem witness_FetchSeesStore :
    ∃ s : State, s.i = s.pc ∧ 1 ≤ (1 : Reg).val ∧ s.i.toNat + (1 : Reg).val < 4096 :=
  ⟨{ dflt with i := 0xFFE, pc := 0xFFE }, by decide, by decide, by decide⟩

/-- For DrawXorsSprite and DrawTwiceRestores: no row, fifteen rows that end at the last byte, and rows clipped at the bottom edge (DRW-5, DRW-13). -/
theorem witness_DrawXorsSprite :
    rowsDrawn dflt.cfg (((dflt.getV 1).toNat) % 32) (0 : Nibble).toNat = 0 ∧
    (15 = rowsDrawn dflt.cfg (((dflt.getV 1).toNat) % 32) (15 : Nibble).toNat ∧
      ({ dflt with i := 0xFF1 } : State).i.toNat + 15 ≤ 4096) ∧
    (12 = rowsDrawn other.cfg ((((withV other [(1, 20)]).getV 1).toNat) % 32) (15 : Nibble).toNat ∧
      ({ withV other [(1, 20)] with i := 0xFF4 } : State).i.toNat + 12 ≤ 4096) := by
  decide

/-- For DrawPastEnd: the first row in range, the second not (DRW-8); and no row in range. -/
theorem witness_DrawPastEnd :
    2 = rowsDrawn dflt.cfg ((dflt.getV 1).toNat % 32) (2 : Nibble).toNat ∧ 0 < 2 ∧
    4096 < ({ dflt with i := 0xFFF } : State).i.toNat + 2 ∧ 4096 < ({ dflt with i := 0x1000 } : State).i.toNat + 2 := by
  decide

/-- For DrawTwiceRestores: glyph 0 over a blank screen (DRW-9). -/
theorem witness_DrawTwiceRestores :
    (0 : Reg) ≠ vF ∧ 5 = rowsDrawn dflt.cfg ((dflt.getV 0).toNat % 32) (5 : Nibble).toNat ∧
    ({ dflt with i := 0x050 } : State).i.toNat + 5 ≤ 4096 ∧ Frame.pixel dflt.fb 0 0 = false := by
  decide

/-- The blank screen that the second clause of DrawTwiceRestores speaks of. -/
theorem witness_DrawTwiceRestores_blank : ∀ (r : Fin 32) (c : Fin 64), Frame.pixel dflt.fb r c = false := by
  intro r c
  simp [dflt, State.reset, State.resetWith, Frame.pixel]

/-- For KeySkips: 15 and 16 under `fault`, 16 under `mask`. -/
theorem witness_KeySkips :
    ((withV dflt [(5, 15)]).getV 5).toNat < 16 ∧
    (16 ≤ ((withV dflt [(5, 16)]).getV 5).toNat ∧ dflt.cfg.keyIndexMode = .fault) ∧
    (((withV other [(5, 16)]).getV 5).toNat = 16 ∧ other.cfg.keyIndexMode = .mask) := by
  decide

/-- For KeyWaitPolls: no key; key 0; key 15 alone (WAIT-1, WAIT-3). -/
theorem witness_KeyWaitPolls :
    dflt.keys = 0 ∧
    (({ dflt with keys := 0x8001 } : State).keys.getLsbD 0 = true ∧
      ∀ j : Nat, j < 0 → ({ dflt with keys := 0x8001 } : State).keys.getLsbD j = false) ∧
    (({ dflt with keys := 0x8000 } : State).keys.getLsbD 15 = true ∧
      ∀ j : Nat, j < 15 → ({ dflt with keys := 0x8000 } : State).keys.getLsbD j = false) := by
  refine ⟨by decide, ⟨by decide, fun j h => absurd h (Nat.not_lt_zero j)⟩, by decide, by decide⟩

/-- For LoadRomCopiesImage: the longest image that fits and the shortest that does not (ROM-1, ROM-2). -/
theorem witness_LoadRomCopiesImage :
    (List.replicate 3583 (0xAA : Byte)).length ≤ 3583 ∧ 3584 ≤ (List.replicate 3584 (0xAA : Byte)).length :=
  ⟨Nat.le_of_eq List.length_replicate, Nat.le_of_eq List.length_replicate.symm⟩

/-- For MemoryStaysCanonical: a memory that lists a byte. -/
theorem witness_MemoryStaysCanonical : MemCanonical (withMem dflt 0x300 [7]) ∧ (withMem dflt 0x300 [7]).mem = [(0x300, 7)] :=
  ⟨by rfl, by decide⟩

/-- For PcStaysBounded: the bound itself (CF-16). -/
theorem witness_PcStaysBounded : PcBounded { dflt with pc := 0x10FE, stack := Vector.replicate 16 0x1000 } :=
  ⟨by decide, by decide⟩

/-- For KeyWaitStaysAtItsInstruction: a waiting engine at `F30A` (WAIT-1). -/
theorem witness_KeyWaitStaysAtItsInstruction :
    ∃ s t : State, s.wm = .awaitingKey ∧ WaitsAtKeyWait s ∧ step s = .next t :=
  ⟨{ withMem dflt 0x200 [0xF3, 0x0A] with wm := .awaitingKey }, _, rfl, fun _ => ⟨0xF30A, 3, by rfl, by rfl⟩, rfl⟩

end Sys2Proof.Tests
end

section
/-! SUPPORT. How a run of sub-operations ends: the state it leaves, and what each of the three byte loops writes of it. -/

namespace Sys2Proof.Machine

/-- The state a run leaves, whether it is done or raised. -/
def Ran.state {α : Type} : Ran α → State
  | .done _ s => s
  | .raised _ s => s

theorem storeBytes_state (a : Nat) (bs : List Byte) (s : State) :
    ∃ m : Memory, (State.storeBytes a bs s).state = s.setMem m := by
  obtain ⟨m, -, -, hrun⟩ := storeBytes_spec bs a s
  refine ⟨m, ?_⟩
  rw [hrun]
  split <;> rfl

theorem loadRegs_state (a : Nat) {rs : List Reg} (hrs : rs.Nodup) (s : State) :
    ∃ v : Vector Byte 16, (State.loadRegs a rs s).state = { s with v := v } := by
  obtain ⟨v, -, -, hrun⟩ := loadRegs_spec rs hrs a s
  refine ⟨v, ?_⟩
  rw [hrun]
  split <;> rfl

theorem drawRows_state {x0 : Nat} (hx : x0 < 64) (y0 : Nat) (n : Nibble) (s : State) :
    ∃ f : Frame, (State.drawRows x0 y0 n.toNat 0 false s).state = s.setFb f := by
  obtain ⟨f, hit, -, -, hrun⟩ := drawRows_spec x0 y0 hx n.toNat 0 false s (by omega)
  refine ⟨f, ?_⟩
  rw [hrun]
  split <;> rfl

end Sys2Proof.Machine
end

section
/-! SUPPORT. The frame of each state operation: `KeptExcept ps s` goes on holding through every write to a piece in `ps`. -/

namespace Sys2Proof.Safety

open Sys2Proof.Machine

variable {ps : List Part} {s t u : State}

theorem KeptExcept.refl (ps : List Part) (s : State) : KeptExcept ps s s where
  v _ _ := rfl
  i _ := rfl
  pc _ := rfl
  stack _ := ⟨rfl, rfl⟩
  dt _ := rfl
  st _ := rfl
  fb _ := rfl
  wm _ := rfl
  mem _ _ := rfl
  keys := rfl
  cfg := rfl
  rand := rfl
  turns := rfl
  turnNo := rfl

theorem KeptExcept.complete (h : KeptExcept ps s t) : KeptExcept ps s t.complete := { h with }

theorem KeptExcept.raise (h : KeptExcept ps s t) (e : Err) : KeptExcept ps s (t.raise e) := { h with }

theorem KeptExcept.withV (h : KeptExcept ps s t) (hv : Part.v ∈ ps) (v : Vector Byte 16) :
    KeptExcept ps s { t with v := v } := { h with v := fun hn => absurd hv hn }

theorem KeptExcept.setV (h : KeptExcept ps s t) (hv : Part.v ∈ ps) (r : Reg) (b : Byte) :
    KeptExcept ps s (t.setV r b) := h.withV hv _

theorem KeptExcept.setFlag (h : KeptExcept ps s t) (hv : Part.v ∈ ps) (f : Bool) :
    KeptExcept ps s (t.setFlag f) := h.setV hv _ _

theorem KeptExcept.setWithFlag (h : KeptExcept ps s t) (hv : Part.v ∈ ps) (x : Reg) (r : Byte) (f : Bool) :
    KeptExcept ps s (t.setWithFlag x r f) := (h.setV hv x r).setFlag hv f

theorem KeptExcept.setI (h : KeptExcept ps s t) (hi : Part.i ∈ ps) (w : Word) : KeptExcept ps s (t.setI w) :=
  { h with i := fun hn => absurd hi hn }

theorem KeptExcept.setPc (h : KeptExcept ps s t) (hpc : Part.pc ∈ ps) (w : Word) : KeptExcept ps s (t.setPc w) :=
  { h with pc := fun hn => absurd hpc hn }

theorem KeptExcept.skipIf (h : KeptExcept ps s t) (hpc : Part.pc ∈ ps) (c : Bool) :
    KeptExcept ps s (t.skipIf c) := by
  rw [skipIf_eq]
  exact h.setPc hpc _

theorem KeptExcept.setDt (h : KeptExcept ps s t) (hdt : Part.dt ∈ ps) (b : Byte) : KeptExcept ps s (t.setDt b) :=
  { h with dt := fun hn => absurd hdt hn }

theorem KeptExcept.setSt (h : KeptExcept ps s t) (hst : Part.st ∈ ps) (b : Byte) : KeptExcept ps s (t.setSt b) :=
  { h with st := fun hn => absurd hst hn }

theorem KeptExcept.setWm (h : KeptExcept ps s t) (hwm : Part.wm ∈ ps) (m : WaitMode) :
    KeptExcept ps s (t.setWm m) := { h with wm := fun hn => absurd hwm hn }

theorem KeptExcept.setFb (h : KeptExcept ps s t) (hfb : Part.fb ∈ ps) (f : Frame) : KeptExcept ps s (t.setFb f) :=
  { h with fb := fun hn => absurd hfb hn }

theorem KeptExcept.setMem (h : KeptExcept ps s t) (hmem : Part.mem ∈ ps) (m : Memory) :
    KeptExcept ps s (t.setMem m) := { h with mem := fun hn => absurd hmem hn }

theorem KeptExcept.push (h : KeptExcept ps s t) (hst : Part.stack ∈ ps) {w : Word} (hpush : t.push w = some u) :
    KeptExcept ps s u := by
  unfold State.push at hpush
  split at hpush
  · obtain rfl := Option.some.inj hpush
    exact { h with stack := fun hn => absurd hst hn }
  · cases hpush

theorem KeptExcept.pop (h : KeptExcept ps s t) (hst : Part.stack ∈ ps) {w : Word} (hpop : t.pop = some (w, u)) :
    KeptExcept ps s u := by
  unfold State.pop at hpop
  split at hpop
  · obtain ⟨-, rfl⟩ := Prod.mk.inj (Option.some.inj hpop)
    exact { h with stack := fun hn => absurd hst hn }
  · cases hpop

/-- The optional increment writes `I` only under `x_plus_1` (spec/42_index_memory.md R174). -/
theorem KeptExcept.bumpIndex (h : KeptExcept ps s t) (hi : s.cfg.loadStoreIncrement = .xPlus1 → Part.i ∈ ps)
    (x : Reg) : KeptExcept ps s (t.bumpIndex x) := by
  unfold State.bumpIndex
  split
  case h_1 => exact h
  case h_2 hinc => exact h.setI (hi (h.cfg ▸ hinc)) _

/-! ### The ends of a run -/

theorem KeptExcept.finish {r : Ran Unit} (h : KeptExcept ps s r.state) : KeptExcept ps s r.finish := by
  cases r with
  | done _ t => exact h.complete
  | raised e t => exact h.raise e

theorem KeptExcept.andThen {α : Type} {f : α → State → State} {r : Ran α} (h : KeptExcept ps s r.state)
    (hf : ∀ a t, KeptExcept ps s t → KeptExcept ps s (f a t)) : KeptExcept ps s (r.andThen f).state := by
  cases r with
  | done a t => exact hf a t h
  | raised e t => exact h

theorem KeptExcept.storeBytes (hmem : Part.mem ∈ ps) (a : Nat) (bs : List Byte) :
    KeptExcept ps s (State.storeBytes a bs s).state := by
  obtain ⟨m, hm⟩ := storeBytes_state a bs s
  rw [hm]
  exact (KeptExcept.refl ps s).setMem hmem m

theorem KeptExcept.loadRegs (hv : Part.v ∈ ps) (a : Nat) (x : Reg) :
    KeptExcept ps s (State.loadRegs a (regsUpTo x) s).state := by
  obtain ⟨v, hv'⟩ := loadRegs_state a (regsUpTo_nodup x) s
  rw [hv']
  exact (KeptExcept.refl ps s).withV hv v

theorem KeptExcept.drawRows (hfb : Part.fb ∈ ps) {x0 : Nat} (hx : x0 < 64) (y0 : Nat) (n : Nibble) :
    KeptExcept ps s (State.drawRows x0 y0 n.toNat 0 false s).state := by
  obtain ⟨f, hf⟩ := drawRows_state hx y0 n s
  rw [hf]
  exact (KeptExcept.refl ps s).setFb hfb f

/-! ### The instructions -/

/-- Every instruction answers a next state, and that state agrees with the one before outside the parts it writes. -/
theorem exec_kept (i : Instr) (s : State) : ∃ t, exec i s = .next t ∧ KeptExcept (writes s.cfg i) s t := by
  have h0 (ps : List Part) : KeptExcept ps s s := .refl ps s
  cases i with
  | sys nnn => exact ⟨_, rfl, (h0 _).complete⟩
  | cls => exact ⟨_, rfl, ((h0 _).setFb (.head _) _).complete⟩
  | jp nnn | jpV0 nnn => exact ⟨_, rfl, ((h0 _).setPc (.head _) _).complete⟩
  | ret =>
    refine ⟨_, rfl, ?_⟩
    split
    case h_1 => exact (h0 _).raise _
    case h_2 w t hpop => exact (((h0 _).pop (.tail _ (.head _)) hpop).setPc (.head _) w).complete
  | call nnn =>
    refine ⟨_, rfl, ?_⟩
    split
    case h_1 => exact (h0 _).raise _
    case h_2 t hpush => exact (((h0 _).push (.tail _ (.head _)) hpush).setPc (.head _) _).complete
  | seImm x kk | sneImm x kk | seReg x y | sneReg x y => exact ⟨_, rfl, ((h0 _).skipIf (.head _) _).complete⟩
  | skp x | sknp x =>
    refine ⟨_, rfl, ?_⟩
    split
    case h_1 => exact ((h0 _).skipIf (.head _) _).complete
    case h_2 e _ => exact (h0 _).raise e
  | ldImm x kk | addImm x kk | ldReg x y | orReg x y | andReg x y | xorReg x y | rnd x kk | ldVxDt x =>
    exact ⟨_, rfl, ((h0 _).setV (.head _) x _).complete⟩
  | addReg x y | subReg x y | shr x y | subnReg x y | shl x y =>
    exact ⟨_, rfl, ((h0 _).setWithFlag (.head _) x _ _).complete⟩
  | ldVxK x =>
    refine ⟨_, rfl, ?_⟩
    split
    case h_1 => exact (((h0 _).setPc (.tail _ (.head _)) _).setWm (.tail _ (.tail _ (.head _))) _).complete
    case h_2 k _ => exact (((h0 _).setV (.head _) x _).setWm (.tail _ (.tail _ (.head _))) _).complete
  | ldDtVx x => exact ⟨_, rfl, ((h0 _).setDt (.head _) _).complete⟩
  | ldStVx x => exact ⟨_, rfl, ((h0 _).setSt (.head _) _).complete⟩
  | ldI nnn => exact ⟨_, rfl, ((h0 _).setI (.head _) _).complete⟩
  | addI x => exact ⟨_, rfl, (((h0 _).setI (.tail _ (.head _)) _).setFlag (.head _) _).complete⟩
  | ldF x =>
    refine ⟨_, rfl, ?_⟩
    split
    case h_1 a _ => exact ((h0 _).setI (.head _) a).complete
    case h_2 e _ => exact (h0 _).raise e
  | drw x y n =>
    refine ⟨_, rfl, .finish (.andThen (.drawRows (.tail _ (.head _)) (Nat.mod_lt _ (by decide)) _ n) ?_)⟩
    exact fun hit t h => h.setFlag (.head _) hit
  | ldB x => exact ⟨_, rfl, .finish (.storeBytes (.head _) _ _)⟩
  | ldMemVx x =>
    have hmem : Part.mem ∈ writes s.cfg (.ldMemVx x) := by rw [writes]; split <;> simp
    have hi (hinc : s.cfg.loadStoreIncrement = .xPlus1) : Part.i ∈ writes s.cfg (.ldMemVx x) := by
      simp [writes, hinc]
    exact ⟨_, rfl, .finish (.andThen (.storeBytes hmem _ _) fun _ t h => h.bumpIndex hi x)⟩
  | ldVxMem x =>
    have hv : Part.v ∈ writes s.cfg (.ldVxMem x) := by rw [writes]; split <;> simp
    have hi (hinc : s.cfg.loadStoreIncrement = .xPlus1) : Part.i ∈ writes s.cfg (.ldVxMem x) := by
      simp [writes, hinc]
    exact ⟨_, rfl, .finish (.andThen (.loadRegs hv _ x) fun _ t h => h.bumpIndex hi x)⟩

/-- An outcome has one next state: what holds of the one it is known to answer holds of any it answers. -/
theorem of_next {o : Outcome} {P : State → Prop} (h : ∃ u, o = .next u ∧ P u) (ht : o = .next t) : P t := by
  obtain ⟨u, hu, hp⟩ := h
  exact Host.Outcome.next.inj (hu.symm.trans ht) ▸ hp

/-- Settles O11, from the frame of each instruction. -/
theorem instructionsWriteOnlyTheirParts : Obligations.InstructionsWriteOnlyTheirParts :=
  fun i s _ ht => of_next (exec_kept i s) ht

end Sys2Proof.Safety
end

section
/-! SUPPORT. The bound on PC and the stack slots: every instruction run after a fetch keeps it, and so does every step and transaction (spec/40_control_flow.md R121, R126, R131). -/

namespace Sys2Proof.Safety

open Sys2Proof.Machine

variable {s t u : State}

@[simp] theorem zext16_toNat (nnn : Addr12) : (zext16 nnn).toNat = nnn.toNat :=
  BitVec.toNat_setWidth_of_le (by decide)

theorem zext16_le (nnn : Addr12) : (zext16 nnn).toNat ≤ 0x10FE := by
  rw [zext16_toNat]
  omega

/-- The longest jump: a 12-bit address and a byte add up to at most 0x10FE, without wrap (spec/40_control_flow.md R131). -/
theorem zext16_add_byte_le (nnn : Addr12) (b : Byte) : (zext16 nnn + b.setWidth 16).toNat ≤ 0x10FE := by
  rw [BitVec.toNat_add, zext16_toNat, BitVec.toNat_setWidth_of_le (by decide)]
  omega

theorem PcBounded.congr (h : PcBounded s) (hpc : t.pc = s.pc) (hstack : t.stack = s.stack) : PcBounded t := by
  rw [PcBounded, hpc, hstack]
  exact h

theorem PcBounded.complete (h : PcBounded s) : PcBounded s.complete := h

theorem PcBounded.raise (h : PcBounded s) (e : Err) : PcBounded (s.raise e) := h

theorem PcBounded.setPc (h : PcBounded s) {w : Word} (hw : w.toNat ≤ 0x10FE) : PcBounded (s.setPc w) := ⟨hw, h.2⟩

theorem PcBounded.skipIf (h : PcBounded s) (hpc : s.pc.toNat ≤ 0x1000) (c : Bool) : PcBounded (s.skipIf c) := by
  rw [skipIf_eq]
  refine h.setPc ?_
  split
  · bv_omega
  · exact h.1

/-- A pushed word of at most 0x1000 keeps the slots bounded. -/
theorem PcBounded.push (h : PcBounded s) {w : Word} (hw : w.toNat ≤ 0x1000) (hpush : s.push w = some t) :
    PcBounded t := by
  unfold State.push at hpush
  split at hpush
  case isFalse => cases hpush
  case isTrue hsp =>
    obtain rfl := Option.some.inj hpush
    refine ⟨h.1, fun k => ?_⟩
    rw [Fin.getElem_fin, Vector.getElem_set]
    split
    · exact hw
    · exact h.2 k

/-- A pop answers a slot's word, and keeps the slots. -/
theorem PcBounded.pop (h : PcBounded s) {w : Word} (hpop : s.pop = some (w, t)) :
    PcBounded t ∧ w.toNat ≤ 0x1000 := by
  unfold State.pop at hpop
  split at hpop
  case isFalse => cases hpop
  case isTrue hsp =>
    obtain ⟨rfl, rfl⟩ := Prod.mk.inj (Option.some.inj hpop)
    exact ⟨h, h.2 ⟨s.sp.val - 1, by omega⟩⟩

/-- An instruction that writes neither PC nor the stack keeps the bound: its frame says so. -/
theorem PcBounded.of_kept {ps : List Part} (h : PcBounded s) (hkept : KeptExcept ps s t) (hpc : Part.pc ∉ ps)
    (hstack : Part.stack ∉ ps) : PcBounded t := h.congr (hkept.pc hpc) (hkept.stack hstack).1

/-- After a fetch PC is from 2 to 0x1000; no instruction takes it or a slot past the bound from there. -/
theorem exec_pcBounded (i : Instr) (h : PcBounded s) (hlo : 2 ≤ s.pc.toNat) (hhi : s.pc.toNat ≤ 0x1000) :
    ∃ t, exec i s = .next t ∧ PcBounded t := by
  cases i with
  | jp nnn => exact ⟨_, rfl, (h.setPc (zext16_le nnn)).complete⟩
  | jpV0 nnn => exact ⟨_, rfl, (h.setPc (zext16_add_byte_le nnn _)).complete⟩
  | call nnn =>
    refine ⟨_, rfl, ?_⟩
    split
    case h_1 => exact h.raise _
    case h_2 t hpush => exact ((h.push hhi hpush).setPc (zext16_le nnn)).complete
  | ret =>
    refine ⟨_, rfl, ?_⟩
    split
    case h_1 => exact h.raise _
    case h_2 w t hpop =>
      obtain ⟨ht, hw⟩ := h.pop hpop
      exact (ht.setPc (by omega)).complete
  | seImm x kk | sneImm x kk | seReg x y | sneReg x y => exact ⟨_, rfl, (h.skipIf hhi _).complete⟩
  | skp x | sknp x =>
    refine ⟨_, rfl, ?_⟩
    split
    case h_1 => exact (h.skipIf hhi _).complete
    case h_2 e _ => exact h.raise e
  | ldVxK x =>
    refine ⟨_, rfl, ?_⟩
    split
    case h_1 => exact (h.setPc (w := s.pc - 2) (by bv_omega)).congr rfl rfl
    case h_2 => exact h.congr rfl rfl
  | ldMemVx x | ldVxMem x =>
    obtain ⟨t, ht, hkept⟩ := exec_kept _ s
    refine ⟨t, ht, h.of_kept hkept ?_ ?_⟩ <;> rw [writes] <;> split <;> simp
  | _ =>
    obtain ⟨t, ht, hkept⟩ := exec_kept _ s
    exact ⟨t, ht, h.of_kept hkept (by simp [writes]) (by simp [writes])⟩

/-- A fetch answers a word only below 0xFFF, so the advance leaves PC from 2 to 0x1000 (spec/40_control_flow.md R121). -/
theorem advance_pc_toNat {w : Word} (hfetch : s.fetch = .ok w) : (s.pc + 2).toNat = s.pc.toNat + 2 := by
  have := fetch_bound hfetch
  bv_omega

theorem engineStep_pcBounded (keys : BitVec 16) (rand : Byte) (h : PcBounded s) :
    ∃ t, engineStep exec keys rand s = .next t ∧ PcBounded t := by
  obtain ⟨e, -, hstep⟩ | ⟨w, e, hfetch, -, hstep⟩ | ⟨w, i, hfetch, -, hstep⟩ := engineStep_cases exec keys rand s
  case inl => exact ⟨_, hstep, h⟩
  all_goals
    have hpc : (s.latch keys rand).advance.pc.toNat = s.pc.toNat + 2 := advance_pc_toNat hfetch
    have hlt := fetch_bound hfetch
    have hadv : PcBounded (s.latch keys rand).advance := h.setPc (s := s.latch keys rand) (hpc.trans_le (by omega))
  case inr.inl => exact ⟨_, hstep, hadv.raise _⟩
  case inr.inr =>
    rw [hstep]
    exact exec_pcBounded i hadv (by omega) (by omega)

/-- The reset state is bounded, whatever the configuration: PC is 0x200 and every slot is 0 (spec/10_state.md R36). -/
theorem resetWith_pcBounded (c : Config) : PcBounded (State.resetWith c) :=
  ⟨(by decide : 0x200 ≤ 0x10FE), fun k => by simp [State.resetWith]⟩

theorem transact_pcBounded (tr : Transaction) (h : PcBounded s) : ∃ t, transact tr s = .next t ∧ PcBounded t := by
  cases tr with
  | reset => exact ⟨_, rfl, (resetWith_pcBounded s.cfg).congr rfl rfl⟩
  | loadRom image =>
    refine ⟨_, rfl, ?_⟩
    unfold State.loadRom
    split
    · exact h.congr rfl rfl
    · exact h
  | step keys rand => exact engineStep_pcBounded keys rand h
  | tick => exact ⟨_, rfl, h.congr rfl rfl⟩

/-- Settles O52: the Ticks of a turn touch neither PC nor the stack, and a Step keeps the bound. -/
theorem pcStaysBounded : Obligations.PcStaysBounded := by
  intro s t h
  have hturn : PcBounded s.beginTurn := h.congr rfl rfl
  exact ⟨of_next (engineStep_pcBounded _ _ hturn), fun tr => of_next (transact_pcBounded tr h)⟩

end Sys2Proof.Safety
end

section
/-! SUPPORT. The flag writers leave a flag byte in VF, and a RET undoes the CALL before it (spec/10_state.md R22, R26). -/

namespace Sys2Proof.Safety

open Sys2Proof.Machine

variable {s t : State}

theorem flagByte_eq_zero_or_one (f : Bool) : flagByte f = 0 ∨ flagByte f = 1 := by
  cases f
  · exact .inl rfl
  · exact .inr rfl

/-- A run that ends in `Ok` was done, and its last statements wrote the state. -/
theorem finish_andThen_ok {α : Type} {f : α → State → State} {r : Ran α} (h : (r.andThen f).finish.res = .ok) :
    ∃ a t, r = .done a t ∧ (r.andThen f).finish = (f a t).complete := by
  cases r with
  | done a t => exact ⟨a, t, rfl, rfl⟩
  | raised e t => cases h

/-- A flag writer that completes leaves the byte of a flag in VF, since the flag is written last (spec/41_alu.md R141). -/
theorem exec_writesFlag {i : Instr} (hi : writesFlag i = true) (ht : exec i s = .next t) (hok : t.res = .ok) :
    ∃ f : Bool, t.getV vF = flagByte f := by
  cases i with
  | addReg x y | subReg x y | subnReg x y | shr x y | shl x y =>
    obtain rfl := Host.Outcome.next.inj ht
    exact ⟨_, setWithFlag_getV_vF s x _ _⟩
  | addI x =>
    obtain rfl := Host.Outcome.next.inj ht
    exact ⟨_, setV_getV_self _ vF _⟩
  | drw x y n =>
    obtain rfl := Host.Outcome.next.inj ht
    obtain ⟨hit, u, -, hu⟩ := finish_andThen_ok hok
    rw [hu]
    exact ⟨hit, setV_getV_self u vF _⟩
  | _ => cases hi

/-- Settles O12: the byte of a flag is 0 or 1. -/
theorem flagIsZeroOrOne : Obligations.FlagIsZeroOrOne := by
  intro i s t hi ht hok
  obtain ⟨f, hf⟩ := exec_writesFlag hi ht hok
  rw [hf]
  exact flagByte_eq_zero_or_one f

theorem exec_call_of_push {u : State} (nnn : Addr12) (hpush : s.push s.pc = some u) :
    exec (.call nnn) s = .next (u.setPc (zext16 nnn)).complete := by
  rw [exec, execCall, hpush]

theorem exec_ret_of_pop {u : State} {w : Word} (hpop : s.pop = some (w, u)) :
    exec .ret s = .next (u.setPc w).complete := by
  rw [exec, execRet, hpop]

/-- Settles O20: RET pops the slot CALL wrote, and the slots below it are not written. -/
theorem returnUndoesCall : Obligations.ReturnUndoesCall := by
  intro nnn s hsp
  have hcall := exec_call_of_push nnn (push_some s.pc hsp)
  refine ⟨_, _, hcall, exec_ret_of_pop (pop_some ⟨s.sp.val, hsp⟩ rfl), rfl, ?_, rfl, fun j hj => ?_⟩
  · exact Vector.getElem_set_self hsp
  · exact Vector.getElem_set_ne hsp j.isLt (by omega)

end Sys2Proof.Safety
end

section
/-! SUPPORT. A change of a piece of state that the byte loops neither read nor write passes through them; WM is such a piece, so no instruction is steered by it (spec/10_state.md R30). -/

namespace Sys2Proof.Machine

variable {α : Type}

/-- `g` changes only what the byte loops leave alone: it keeps what they read and commutes with what they write. -/
structure PassesLoops (g : State → State) : Prop where
  cfg : ∀ s, (g s).cfg = s.cfg
  mem : ∀ s, (g s).mem = s.mem
  i : ∀ s, (g s).i = s.i
  fb : ∀ s, (g s).fb = s.fb
  setMem : ∀ s m, (g s).setMem m = g (s.setMem m)
  setV : ∀ s r b, (g s).setV r b = g (s.setV r b)
  setFb : ∀ s f, (g s).setFb f = g (s.setFb f)
  complete : ∀ s, (g s).complete = g s.complete
  raise : ∀ s e, (g s).raise e = g (s.raise e)

theorem passesLoops_setWm (m : WaitMode) : PassesLoops (·.setWm m) where
  cfg _ := rfl
  mem _ := rfl
  i _ := rfl
  fb _ := rfl
  setMem _ _ := rfl
  setV _ _ _ := rfl
  setFb _ _ := rfl
  complete _ := rfl
  raise _ _ := rfl

/-- The run with its state changed by `g`. -/
def Ran.mapState (g : State → State) : Ran α → Ran α
  | .done a s => .done a (g s)
  | .raised e s => .raised e (g s)

theorem Ran.andThen_mapState {g : State → State} {f : α → State → State} (r : Ran α)
    (hf : ∀ a s, f a (g s) = g (f a s)) : (r.mapState g).andThen f = (r.andThen f).mapState g := by
  cases r with
  | done a s => exact congrArg (Ran.done ()) (hf a s)
  | raised e s => rfl

variable {g : State → State} (hg : PassesLoops g)
include hg

theorem PassesLoops.byteAt (s : State) (a : Nat) : (g s).byteAt a = s.byteAt a := by
  rw [State.byteAt, hg.cfg, hg.mem, State.byteAt]

theorem PassesLoops.memRead (s : State) (a : Nat) : (g s).memRead a = s.memRead a := by
  rw [State.memRead, hg.byteAt, State.memRead]

theorem PassesLoops.finish (r : Ran Unit) : (r.mapState g).finish = g r.finish := by
  cases r with
  | done a s => exact hg.complete s
  | raised e s => exact hg.raise s e

theorem PassesLoops.finish_andThen {r r' : Ran α} {f : α → State → State} (hr : r' = r.mapState g)
    (hf : ∀ a s, f a (g s) = g (f a s)) : (r'.andThen f).finish = g (r.andThen f).finish := by
  rw [hr, Ran.andThen_mapState r hf, hg.finish]

theorem PassesLoops.storeBytes (a : Nat) (bs : List Byte) (s : State) :
    State.storeBytes a bs (g s) = (State.storeBytes a bs s).mapState g := by
  induction bs generalizing a s with
  | nil => rfl
  | cons b bs ih =>
    simp only [State.storeBytes]
    by_cases ha : a < 4096
    · simp only [memWrite_ok b ha, hg.cfg, hg.mem, hg.setMem]
      exact ih _ _
    · simp only [memWrite_error b (Nat.le_of_not_lt ha)]
      rfl

theorem PassesLoops.loadRegs (a : Nat) (rs : List Reg) (s : State) :
    State.loadRegs a rs (g s) = (State.loadRegs a rs s).mapState g := by
  induction rs generalizing a s with
  | nil => rfl
  | cons r rs ih =>
    simp only [State.loadRegs, hg.memRead]
    cases s.memRead a with
    | error e => rfl
    | ok b => simp only [hg.setV, ih]

theorem PassesLoops.drawRows (x0 y0 n k : Nat) (hit : Bool) (s : State) :
    State.drawRows x0 y0 n k hit (g s) = (State.drawRows x0 y0 n k hit s).mapState g := by
  induction n generalizing k hit s with
  | zero => rfl
  | succ n ih =>
    simp only [State.drawRows, hg.cfg, hg.memRead, hg.i, hg.fb]
    split
    · rfl
    · cases s.memRead (s.i.toNat + k) with
      | error e => rfl
      | ok b => simp only [hg.setFb, ih]

end Sys2Proof.Machine

namespace Sys2Proof.Safety

open Sys2Proof.Machine

theorem bumpIndex_setWm (s : State) (m : WaitMode) (x : Reg) : (s.setWm m).bumpIndex x = (s.bumpIndex x).setWm m := by
  rw [bumpIndex_eq, bumpIndex_eq]
  rfl

theorem skipIf_setWm (s : State) (m : WaitMode) (c : Bool) : (s.setWm m).skipIf c = (s.skipIf c).setWm m := by
  rw [skipIf_eq, skipIf_eq]
  rfl

theorem push_setWm (s : State) (m : WaitMode) (w : Word) : (s.setWm m).push w = (s.push w).map (·.setWm m) := by
  by_cases hsp : s.sp.val < 16
  · rw [push_some w hsp, push_some (s := s.setWm m) w hsp]
    rfl
  · have hfull : s.sp.val = 16 := by omega
    rw [push_none w hfull, push_none (s := s.setWm m) w hfull]
    rfl

theorem pop_setWm (s : State) (m : WaitMode) :
    (s.setWm m).pop = s.pop.map (fun p => (p.1, p.2.setWm m)) := by
  by_cases hsp : s.sp.val = 0
  · rw [pop_none hsp, pop_none (s := s.setWm m) hsp]
    rfl
  · obtain ⟨k, hk⟩ : ∃ k : Fin 16, s.sp.val = k.val + 1 := ⟨⟨s.sp.val - 1, by omega⟩, by simp only; omega⟩
    rw [pop_some k hk, pop_some (s := s.setWm m) k hk]
    rfl

/-- Every instruction but the key wait carries WM along: it neither reads nor writes it. -/
theorem exec_setWm (i : Instr) (hi : ∀ x, i ≠ .ldVxK x) (s : State) (m : WaitMode) :
    ∃ t, exec i s = .next t ∧ exec i (s.setWm m) = .next (t.setWm m) := by
  have hg := passesLoops_setWm m
  cases i with
  | ldVxK x => exact absurd rfl (hi x)
  | seImm x kk | sneImm x kk | seReg x y | sneReg x y =>
    refine ⟨_, rfl, ?_⟩
    simp only [exec, execSeImm, execSneImm, execSeReg, execSneReg, setWm_getV, skipIf_setWm]
    rfl
  | skp x | sknp x =>
    refine ⟨_, rfl, ?_⟩
    simp only [exec, execSkp, execSknp, setWm_cfg, setWm_getV, skipIf_setWm]
    cases keyOf s.cfg (s.getV x) with
    | ok k => rfl
    | error e => rfl
  | ldF x =>
    refine ⟨_, rfl, ?_⟩
    simp only [exec, execLdF, setWm_cfg, setWm_getV]
    cases fontAddr (fontIndex s.cfg (s.getV x)) with
    | ok a => rfl
    | error e => rfl
  | call nnn =>
    refine ⟨_, rfl, ?_⟩
    simp only [exec, execCall, setWm_pc, push_setWm]
    cases s.push s.pc with
    | none => rfl
    | some t => rfl
  | ret =>
    refine ⟨_, rfl, ?_⟩
    simp only [exec, execRet, pop_setWm]
    cases s.pop with
    | none => rfl
    | some p => rfl
  | ldB x =>
    have hrun := congrArg Ran.finish (hg.storeBytes s.i.toNat (bcdDigits (s.getV x)) s)
    exact ⟨_, rfl, congrArg Host.Outcome.next (hrun.trans (hg.finish _))⟩
  | drw x y n =>
    exact ⟨_, rfl, congrArg Host.Outcome.next (hg.finish_andThen (hg.drawRows _ _ _ _ _ s) fun _ _ => rfl)⟩
  | ldMemVx x =>
    exact ⟨_, rfl, congrArg Host.Outcome.next
      (hg.finish_andThen (hg.storeBytes _ _ s) fun _ t => bumpIndex_setWm t m x)⟩
  | ldVxMem x =>
    exact ⟨_, rfl, congrArg Host.Outcome.next
      (hg.finish_andThen (hg.loadRegs _ _ s) fun _ t => bumpIndex_setWm t m x)⟩
  | _ => exact ⟨_, rfl, rfl⟩

/-- The key wait writes WM in both its cases and never reads it, so it ends in the same state. -/
theorem exec_ldVxK_setWm (x : Reg) (s : State) (m : WaitMode) : exec (.ldVxK x) (s.setWm m) = exec (.ldVxK x) s := by
  have hkey : (s.setWm m).nextKey = s.nextKey := rfl
  simp only [exec, execLdVxK, hkey]
  cases s.nextKey with
  | none => rfl
  | some k => rfl

/-- Settles O14: the key wait ends in the same state, and every other instruction carries WM along. -/
theorem waitModeDoesNotSteer : Obligations.WaitModeDoesNotSteer := by
  intro i s t m ht
  by_cases hi : ∃ x, i = .ldVxK x
  · obtain ⟨x, rfl⟩ := hi
    exact ⟨t, (exec_ldVxK_setWm x s m).trans ht, rfl⟩
  · obtain ⟨u, hu, hm⟩ := exec_setWm i (fun x hx => hi ⟨x, hx⟩) s m
    obtain rfl : u = t := Host.Outcome.next.inj (hu.symm.trans ht)
    exact ⟨u.setWm m, hm, rfl⟩

end Sys2Proof.Safety
end

section
/-! SUPPORT. The reset state (spec/10_state.md R36). -/

namespace Sys2Proof.Safety

open Sys2Proof.Machine

/-- After Reset memory lists nothing, so each byte reads as its reset contents (spec/20_memory.md R69). -/
theorem resetEngine_byteAt (s : State) (a : Nat) : s.resetEngine.byteAt a = resetByte s.cfg a :=
  Memory.read_nil s.cfg a

/-- Settles O50: every piece is at its reset value by definition; memory reads as the font and 0. -/
theorem resetLeavesResetState : Obligations.ResetLeavesResetState := by
  intro s
  refine ⟨s.resetEngine, rfl, rfl, rfl, rfl, rfl, fun k => ?font, fun a ha => ?other, fun r => ?v, rfl, fun k => ?stack,
    pixel_blank, rfl, rfl, rfl, rfl⟩
  case font => exact (resetEngine_byteAt s _).trans (resetByte_font s.cfg k.val k.isLt)
  case other => exact (resetEngine_byteAt s a).trans (resetByte_other s.cfg a ha)
  case v => exact Vector.getElem_replicate r.isLt
  case stack => exact Vector.getElem_replicate k.isLt

/-- Settles O54: no byte is listed, PC and the slots are low, and WM is Running. -/
theorem resetMeetsInvariants : Obligations.ResetMeetsInvariants :=
  fun c => ⟨rfl, resetWith_pcBounded c, fun hwait => nomatch hwait⟩

end Sys2Proof.Safety
end

section
/-! SUPPORT. The canonical form of memory: every instruction, every step and every transaction keeps it (spec/20_memory.md R60, R62). -/

namespace Sys2Proof.Safety

open Sys2Proof.Machine

variable {s t : State}

theorem MemCanonical.congr (h : MemCanonical s) (hcfg : t.cfg = s.cfg) (hmem : t.mem = s.mem) : MemCanonical t := by
  rw [MemCanonical, hcfg, hmem]
  exact h

theorem MemCanonical.complete (h : MemCanonical s) : MemCanonical s.complete := h

theorem MemCanonical.raise (h : MemCanonical s) (e : Err) : MemCanonical (s.raise e) := h

theorem MemCanonical.setV (h : MemCanonical s) (r : Reg) (b : Byte) : MemCanonical (s.setV r b) := h

theorem MemCanonical.setI (h : MemCanonical s) (w : Word) : MemCanonical (s.setI w) := h

theorem MemCanonical.setPc (h : MemCanonical s) (w : Word) : MemCanonical (s.setPc w) := h

theorem MemCanonical.skipIf (h : MemCanonical s) (c : Bool) : MemCanonical (s.skipIf c) := by
  rw [skipIf_eq]
  exact h.setPc _

theorem MemCanonical.push (h : MemCanonical s) {w : Word} (hpush : s.push w = some t) : MemCanonical t := by
  unfold State.push at hpush
  split at hpush
  · exact Option.some.inj hpush ▸ h.congr rfl rfl
  · cases hpush

theorem MemCanonical.pop (h : MemCanonical s) {w : Word} (hpop : s.pop = some (w, t)) : MemCanonical t := by
  unfold State.pop at hpop
  split at hpop
  · obtain ⟨-, rfl⟩ := Prod.mk.inj (Option.some.inj hpop)
    exact h.congr rfl rfl
  · cases hpop

theorem MemCanonical.bumpIndex (h : MemCanonical s) (x : Reg) : MemCanonical (s.bumpIndex x) := by
  rw [bumpIndex_eq]
  exact h.setI _

/-! ### The runs -/

theorem MemCanonical.finish {r : Ran Unit} (h : MemCanonical r.state) : MemCanonical r.finish := by
  cases r with
  | done _ t => exact h.complete
  | raised e t => exact h.raise e

theorem MemCanonical.andThen {α : Type} {f : α → State → State} {r : Ran α} (h : MemCanonical r.state)
    (hf : ∀ a t, MemCanonical t → MemCanonical (f a t)) : MemCanonical (r.andThen f).state := by
  cases r with
  | done a t => exact hf a t h
  | raised e t => exact h

/-- A run of stores writes only addresses that exist, so memory stays canonical whether or not it raises. -/
theorem MemCanonical.storeBytes (h : MemCanonical s) (a : Nat) (bs : List Byte) :
    MemCanonical (State.storeBytes a bs s).state := by
  obtain ⟨m, hwf, -, hrun⟩ := storeBytes_spec bs a s
  have hm : MemCanonical (s.setMem m) := hwf h
  rw [hrun]
  split <;> exact hm

theorem MemCanonical.loadRegs (h : MemCanonical s) (a : Nat) (x : Reg) :
    MemCanonical (State.loadRegs a (regsUpTo x) s).state := by
  obtain ⟨v, hv⟩ := loadRegs_state a (regsUpTo_nodup x) s
  rw [hv]
  exact h.congr rfl rfl

theorem MemCanonical.drawRows (h : MemCanonical s) {x0 : Nat} (hx : x0 < 64) (y0 : Nat) (n : Nibble) :
    MemCanonical (State.drawRows x0 y0 n.toNat 0 false s).state := by
  obtain ⟨f, hf⟩ := drawRows_state hx y0 n s
  rw [hf]
  exact h.congr rfl rfl

/-! ### The instructions, the Step and the transactions -/

/-- Only `LD B` and `LD [I]` store, by a run of stores; every other instruction leaves the memory list as it is. -/
theorem exec_memCanonical (i : Instr) (h : MemCanonical s) : ∃ t, exec i s = .next t ∧ MemCanonical t := by
  cases i with
  | ldB x => exact ⟨_, rfl, .finish (h.storeBytes _ _)⟩
  | ldMemVx x => exact ⟨_, rfl, .finish (.andThen (h.storeBytes _ _) fun _ t ht => ht.bumpIndex x)⟩
  | ldVxMem x => exact ⟨_, rfl, .finish (.andThen (h.loadRegs _ x) fun _ t ht => ht.bumpIndex x)⟩
  | drw x y n =>
    exact ⟨_, rfl, .finish (.andThen (h.drawRows (Nat.mod_lt _ (by decide)) _ n) fun hit t ht => ht.setV vF _)⟩
  | ret =>
    refine ⟨_, rfl, ?_⟩
    split
    case h_1 => exact h.raise _
    case h_2 w t hpop => exact ((h.pop hpop).setPc w).complete
  | call nnn =>
    refine ⟨_, rfl, ?_⟩
    split
    case h_1 => exact h.raise _
    case h_2 t hpush => exact ((h.push hpush).setPc _).complete
  | seImm x kk | sneImm x kk | seReg x y | sneReg x y => exact ⟨_, rfl, (h.skipIf _).complete⟩
  | skp x | sknp x =>
    refine ⟨_, rfl, ?_⟩
    split
    case h_1 => exact (h.skipIf _).complete
    case h_2 e _ => exact h.raise e
  | ldF x =>
    refine ⟨_, rfl, ?_⟩
    split
    case h_1 a _ => exact (h.setI a).complete
    case h_2 e _ => exact h.raise e
  | ldVxK x =>
    refine ⟨_, rfl, ?_⟩
    split <;> exact h.congr rfl rfl
  | _ => exact ⟨_, rfl, h.congr rfl rfl⟩

theorem engineStep_memCanonical (keys : BitVec 16) (rand : Byte) (h : MemCanonical s) :
    ∃ t, engineStep exec keys rand s = .next t ∧ MemCanonical t := by
  have hadv : MemCanonical (s.latch keys rand).advance := h.congr rfl rfl
  obtain ⟨e, -, hstep⟩ | ⟨w, e, -, -, hstep⟩ | ⟨w, i, -, -, hstep⟩ := engineStep_cases exec keys rand s
  case inl => exact ⟨_, hstep, h.congr rfl rfl⟩
  case inr.inl => exact ⟨_, hstep, hadv.raise _⟩
  case inr.inr =>
    rw [hstep]
    exact exec_memCanonical i hadv

theorem romFits_iff (image : List Byte) : romFits image = true ↔ image.length ≤ 3583 := by
  rw [romFits_eq, decide_eq_true_iff, Nat.lt_succ_iff]

/-- An accepted image ends at 0xFFE at the latest, so each of its bytes has an address (spec/20_memory.md R72). -/
theorem MemCanonical.loadRom (h : MemCanonical s) (image : List Byte) : MemCanonical (s.loadRom image) := by
  unfold State.loadRom
  split
  case isTrue hfits =>
    have hlen := (romFits_iff image).1 hfits
    exact Memory.wf_load image (by simp only [romBase, memSize]; omega) h
  case isFalse => exact h

theorem transact_memCanonical (tr : Transaction) (h : MemCanonical s) :
    ∃ t, transact tr s = .next t ∧ MemCanonical t := by
  cases tr with
  | reset => exact ⟨_, rfl, (resetMeetsInvariants s.cfg).1.congr rfl rfl⟩
  | loadRom image => exact ⟨_, rfl, h.loadRom image⟩
  | step keys rand => exact engineStep_memCanonical keys rand h
  | tick => exact ⟨_, rfl, h.congr rfl rfl⟩

/-- Settles O51: the Ticks of a turn leave memory alone, and a Step keeps the canonical form. -/
theorem memoryStaysCanonical : Obligations.MemoryStaysCanonical := by
  intro s t h
  have hturn : MemCanonical s.beginTurn := h.congr rfl rfl
  exact ⟨of_next (engineStep_memCanonical _ _ hturn), fun tr => of_next (transact_memCanonical tr h)⟩

end Sys2Proof.Safety
end

section
/-! SUPPORT. What a run of stores and an accepted ROM image leave in memory, byte by byte (spec/20_memory.md R62, R64, R72, R76). -/

namespace Sys2Proof.Safety

open Sys2Proof.Machine

variable {s : State}

/-! ### A store over the next instruction -/

/-- A run of stores that stays inside memory is done: it puts its bytes from `a` on and keeps every other byte. -/
theorem storeBytes_inRange (bs : List Byte) {a : Nat} (h : a + bs.length ≤ 4096) :
    ∃ m : Memory, State.storeBytes a bs s = .done () (s.setMem m) ∧
      (∀ (k : Nat) (hk : k < bs.length), (s.setMem m).byteAt (a + k) = bs[k]) ∧
      BytesKeptOutside a bs.length s (s.setMem m) := by
  obtain ⟨m, -, hread, hrun⟩ := storeBytes_spec bs a s
  refine ⟨m, by rw [hrun, if_pos (.inl h)], fun k hk => ?_, fun b hb => ?_⟩
  · rw [hread, dif_pos (by omega)]
    simp
  · rw [hread, dif_neg (by omega)]

/-- `LD [I], Vx` in range: byte `I + k` is `V[k]` for each `k` up to `x`, every other byte stays, and memory and the optional increment of `I` are all it writes (spec/42_index_memory.md R174). -/
theorem exec_ldMemVx_inRange {x : Reg} (h : s.i.toNat + x.val < 4096) :
    ∃ m : Memory, exec (.ldMemVx x) s = .next ((s.setMem m).bumpIndex x).complete ∧
      (∀ k : Reg, k ≤ x → (s.setMem m).byteAt (s.i.toNat + k.val) = s.getV k) ∧
      BytesKeptOutside s.i.toNat (x.val + 1) s (s.setMem m) := by
  have hlen : ((regsUpTo x).map s.getV).length = x.val + 1 := by rw [List.length_map, regsUpTo_length]
  have hend : s.i.toNat + ((regsUpTo x).map s.getV).length ≤ 4096 := by rw [hlen]; exact h
  obtain ⟨m, hrun, hbytes, hkept⟩ := storeBytes_inRange (s := s) _ hend
  refine ⟨m, ?_, fun k hk => ?_, hlen ▸ hkept⟩
  · rw [exec, execLdMemVx, hrun]
    rfl
  · rw [hbytes k.val (by rw [hlen]; exact Nat.lt_succ_of_le hk), List.getElem_map, regsUpTo_getElem]

/-- The byte at the lower address is the more significant (spec/20_memory.md R64). -/
theorem append_byte_toNat (hi lo : Byte) : (hi ++ lo).toNat = hi.toNat * 256 + lo.toNat := by
  rw [BitVec.toNat_append, ← Nat.shiftLeft_add_eq_or_of_lt lo.isLt, Nat.shiftLeft_eq]

/-- Settles O39: PC is still `I`, and the first two bytes stored are `V0` and `V1`. -/
theorem fetchSeesStore : Obligations.FetchSeesStore := by
  intro x s hpc hx h
  obtain ⟨m, hexec, hbytes, -⟩ := exec_ldMemVx_inRange h
  rw [bumpIndex_eq] at hexec
  have hlt : s.pc.toNat < 4095 := by rw [← hpc]; omega
  refine ⟨_, hexec, s.getV 0 ++ s.getV 1, (fetch_ok (by exact hlt)).trans ?_, append_byte_toNat _ _⟩
  have h0 := hbytes 0 (Fin.zero_le x)
  have h1 := hbytes 1 hx
  rw [hpc] at h0 h1
  exact congrArg₂ (fun hi lo => Except.ok (hi ++ lo)) h0 h1

/-! ### LoadRom -/

theorem loadRom_of_le {image : List Byte} (h : image.length ≤ 3583) :
    s.loadRom image = s.setMem (Memory.load s.cfg s.mem romBase image) := if_pos ((romFits_iff image).2 h)

theorem loadRom_of_lt {image : List Byte} (h : 3583 < image.length) : s.loadRom image = s :=
  if_neg fun hfits => absurd ((romFits_iff image).1 hfits) (by omega)

/-- An accepted image is what memory reads from 0x200 on, and nothing else changes there. -/
theorem loadRom_byteAt {image : List Byte} (h : image.length ≤ 3583) (b : Nat) :
    (s.loadRom image).byteAt b =
      if hb : 0x200 ≤ b ∧ b - 0x200 < image.length then image[b - 0x200] else s.byteAt b := by
  rw [loadRom_of_le h]
  exact Memory.read_load s.cfg image s.mem 0x200 b

/-- Settles O49: the image is accepted up to 3583 bytes, and then memory alone changes. -/
theorem loadRomCopiesImage : Obligations.LoadRomCopiesImage := by
  intro image s
  constructor
  case left =>
    intro hlen
    have hreply : loadRomResult image = .ok := if_pos ((romFits_iff image).2 hlen)
    refine ⟨s.loadRom image, rfl, congrArg some hreply, fun k hk => ?inside, fun b hb => ?outside, ?res, ?kept⟩
    case inside =>
      rw [loadRom_byteAt hlen, dif_pos (by omega)]
      simp
    case outside => rw [loadRom_byteAt hlen, dif_neg (by omega)]
    case res => rw [loadRom_of_le hlen, setMem_res]
    case kept =>
      rw [loadRom_of_le hlen]
      exact (KeptExcept.refl _ s).setMem (.head _) _
  case right =>
    intro hlen
    have hreply : loadRomResult image = .err (.romTooLarge image.length) :=
      if_neg fun hfits => absurd ((romFits_iff image).1 hfits) (by omega)
    exact ⟨congrArg Host.Outcome.next (loadRom_of_lt hlen), congrArg some hreply⟩

end Sys2Proof.Safety
end

section
/-! SUPPORT. The decoder and the encoder undo each other, and the decoder rejects exactly the illegal set (spec/30_encoding.md R94 to R97).
The last branch of a `match` on a number knows `x = c → False` for each earlier case `c`; `imp_false` turns these into the disequalities that simp and omega read. -/

namespace Sys2Proof

variable {w : Word} {i : Instr}

/-! ### A word is the encoding of its own fields -/

/-- A word is its family nibble and its address (R91). -/
theorem op_append_fieldNNN (w : Word) : w.extractLsb' 12 4 ++ fieldNNN w = w :=
  (BitVec.extractLsb'_append_extractLsb'_eq_extractLsb' rfl).trans BitVec.extractLsb'_eq_self

/-- The address of format `FA` is made of `X` and `KK` (R91). -/
theorem fieldX_append_fieldKK (w : Word) : regBits (fieldX w) ++ fieldKK w = fieldNNN w :=
  BitVec.extractLsb'_append_extractLsb'_eq_extractLsb' rfl

/-- The byte `KK` is made of `Y` and `N` (R91). -/
theorem fieldY_append_fieldN (w : Word) : regBits (fieldY w) ++ fieldN w = fieldKK w :=
  BitVec.extractLsb'_append_extractLsb'_eq_extractLsb' rfl

theorem encodeFA_fields {op : Nibble} (hop : (w.extractLsb' 12 4).toNat = op.toNat) :
    encodeFA op (fieldNNN w) = w := by
  obtain rfl := BitVec.eq_of_toNat_eq hop
  exact op_append_fieldNNN w

theorem encodeFXK_fields {op : Nibble} {kk : Byte} (hop : (w.extractLsb' 12 4).toNat = op.toNat)
    (hkk : (fieldKK w).toNat = kk.toNat) : encodeFXK op (fieldX w) kk = w := by
  obtain rfl := BitVec.eq_of_toNat_eq hkk
  rw [encodeFXK, fieldX_append_fieldKK]
  exact encodeFA_fields hop

theorem encodeFXY_fields {op n : Nibble} (hop : (w.extractLsb' 12 4).toNat = op.toNat)
    (hn : (fieldN w).toNat = n.toNat) : encodeFXY op (fieldX w) (fieldY w) n = w := by
  obtain rfl := BitVec.eq_of_toNat_eq hn
  rw [encodeFXY, fieldY_append_fieldN]
  exact encodeFXK_fields hop rfl

/-! ### The decoder after the encoder -/

theorem encodeFA_inj {op : Nibble} {a b : Addr12} : encodeFA op a = encodeFA op b ↔ a = b := by
  refine ⟨fun h => ?_, congrArg _⟩
  rw [← fieldNNN_encodeFA op a, h, fieldNNN_encodeFA]

/-- Family 0 as a question about the address alone: the words of CLS and RET are those of `0x0E0` and `0x0EE` (R97). -/
theorem decode0_encodeFA (nnn : Addr12) :
    decode0 (encodeFA 0#4 nnn) =
      if nnn = 0x0E0#12 then .cls else if nnn = 0x0EE#12 then .ret else .sys nnn := by
  have hcls : 0x00E0#16 = encodeFA 0#4 0x0E0#12 := rfl
  have hret : 0x00EE#16 = encodeFA 0#4 0x0EE#12 := rfl
  rw [decode0, hcls, hret, fieldNNN_encodeFA]
  simp only [encodeFA_inj]

theorem wellFormed_sys_iff (nnn : Addr12) :
    (Instr.sys nnn).wellFormed = true ↔ nnn ≠ 0x0E0#12 ∧ nnn ≠ 0x0EE#12 := by
  simp [Instr.wellFormed]

/-- Each format gives back the family nibble and the fields it was built from, and these choose the operation again. -/
theorem decode_encode (h : i.wellFormed = true) : decode (encode i) = .ok i := by
  cases i with
  | sys nnn =>
    obtain ⟨hcls, hret⟩ := (wellFormed_sys_iff nnn).1 h
    simp [encode, decode, op_encodeFA, decode0_encodeFA, hcls, hret]
  | cls | ret => rfl
  | jp nnn | call nnn | ldI nnn | jpV0 nnn => simp [encode, decode, op_encodeFA, fieldNNN_encodeFA]
  | seImm x kk | sneImm x kk | ldImm x kk | addImm x kk | rnd x kk =>
    simp [encode, decode, op_encodeFXK, fieldX_encodeFXK, fieldKK_encodeFXK]
  | seReg x y | sneReg x y | drw x y n =>
    simp [encode, decode, op_encodeFXY, fieldX_encodeFXY, fieldY_encodeFXY, fieldN_encodeFXY]
  | ldReg x y | orReg x y | andReg x y | xorReg x y | addReg x y | subReg x y | shr x y | subnReg x y | shl x y =>
    simp [encode, decode, decode8, op_encodeFXY, fieldX_encodeFXY, fieldY_encodeFXY, fieldN_encodeFXY]
  | skp x | sknp x => simp [encode, decode, decodeE, op_encodeFXK, fieldX_encodeFXK, fieldKK_encodeFXK]
  | ldVxDt x | ldVxK x | ldDtVx x | ldStVx x | addI x | ldF x | ldB x | ldMemVx x | ldVxMem x =>
    simp [encode, decode, decodeF, op_encodeFXK, fieldX_encodeFXK, fieldKK_encodeFXK]

/-- Settles O1, format by format. -/
theorem decodeOfEncode : Obligations.DecodeOfEncode := fun _ => decode_encode

/-- Settles O4: each word is the encoding of its instruction. -/
theorem sampleWordsDecode : Obligations.SampleWordsDecode := by
  have hword {w : Word} (i : Instr) (hi : i.wellFormed = true) (hw : encode i = w) : decode w = .ok i :=
    hw ▸ decode_encode hi
  exact ⟨hword .cls rfl rfl, hword (.jp 0x234) rfl rfl, hword (.call 0x312) rfl rfl, hword (.seImm 5 0x12) rfl rfl,
    hword (.sneImm 10 0xF1) rfl rfl, hword (.seReg 1 2) rfl rfl, hword (.ldImm 10 0x3C) rfl rfl,
    hword (.addImm 1 0xFE) rfl rfl, hword (.addReg 1 2) rfl rfl, hword (.sneReg 2 1) rfl rfl,
    hword (.ldI 0x301) rfl rfl, hword (.jpV0 0x302) rfl rfl, hword (.rnd 3 0x0F) rfl rfl,
    hword (.drw 1 2 5) rfl rfl, hword (.skp 5) rfl rfl, hword (.ldB 3) rfl rfl⟩

/-! ### The encoder after the decoder -/

/-- `i` is well formed and `w` is its word. -/
def Encodes (i : Instr) (w : Word) : Prop := i.wellFormed = true ∧ encode i = w

theorem decode0_encodes (hop : (w.extractLsb' 12 4).toNat = 0x0) : Encodes (decode0 w) w := by
  have hw : encodeFA 0#4 (fieldNNN w) = w := encodeFA_fields hop
  generalize fieldNNN w = nnn at hw
  subst hw
  rw [decode0_encodeFA]
  split_ifs with hcls hret
  · subst hcls
    exact ⟨rfl, rfl⟩
  · subst hret
    exact ⟨rfl, rfl⟩
  · exact ⟨(wellFormed_sys_iff nnn).2 ⟨hcls, hret⟩, rfl⟩

theorem decode8_encodes (hop : (w.extractLsb' 12 4).toNat = 0x8) (h : decode8 w = .ok i) : Encodes i w := by
  unfold decode8 at h
  split at h <;> cases h
  all_goals
    rename_i hn
    exact ⟨rfl, encodeFXY_fields hop hn⟩

theorem decodeE_encodes (hop : (w.extractLsb' 12 4).toNat = 0xE) (h : decodeE w = .ok i) : Encodes i w := by
  unfold decodeE at h
  split at h <;> cases h
  all_goals
    rename_i hkk
    exact ⟨rfl, encodeFXK_fields hop hkk⟩

theorem decodeF_encodes (hop : (w.extractLsb' 12 4).toNat = 0xF) (h : decodeF w = .ok i) : Encodes i w := by
  unfold decodeF at h
  split at h <;> cases h
  all_goals
    rename_i hkk
    exact ⟨rfl, encodeFXK_fields hop hkk⟩

/-- Families 5 and 9 accept a word only with `N = 0`, so no bit of it is lost (D13). -/
theorem decodeN0_encodes {op : Nibble} {j : Instr} (hop : (w.extractLsb' 12 4).toNat = op.toNat)
    (hj : j.wellFormed = true) (hw : encode j = encodeFXY op (fieldX w) (fieldY w) 0)
    (h : (if fieldN w = 0 then .ok j else .error (.unknownOpcode w) : Except DecodeError Instr) = .ok i) :
    Encodes i w := by
  split_ifs at h with hn
  cases h
  exact ⟨hj, hw.trans (encodeFXY_fields hop (congrArg BitVec.toNat hn))⟩

theorem decode_encodes (h : decode w = .ok i) : Encodes i w := by
  unfold decode at h
  split at h
  case h_1 hop =>
    cases h
    exact decode0_encodes hop
  case h_2 hop | h_3 hop | h_11 hop | h_12 hop =>
    cases h
    exact ⟨rfl, encodeFA_fields hop⟩
  case h_4 hop | h_5 hop | h_7 hop | h_8 hop | h_13 hop =>
    cases h
    exact ⟨rfl, encodeFXK_fields hop rfl⟩
  case h_14 hop =>
    cases h
    exact ⟨rfl, encodeFXY_fields hop rfl⟩
  case h_6 hop => exact decodeN0_encodes (op := 0x5) hop rfl rfl h
  case h_10 hop => exact decodeN0_encodes (op := 0x9) hop rfl rfl h
  case h_9 hop => exact decode8_encodes hop h
  case h_15 hop => exact decodeE_encodes hop h
  case h_16 =>
    simp only [imp_false] at *
    exact decodeF_encodes (by omega) h

/-- Settles O2: a word is the encoding of its own fields. -/
theorem encodeOfDecode : Obligations.EncodeOfDecode := fun _ _ => decode_encodes

/-! ### The illegal words -/

theorem op_toNat (w : Word) : (w.extractLsb' 12 4).toNat = w.toNat / 4096 := by
  rw [BitVec.extractLsb'_toNat, Nat.shiftRight_eq_div_pow]
  omega

theorem fieldN_toNat (w : Word) : (fieldN w).toNat = w.toNat % 16 := by
  rw [fieldN, BitVec.extractLsb'_toNat, Nat.shiftRight_zero]

theorem fieldKK_toNat (w : Word) : (fieldKK w).toNat = w.toNat % 256 := by
  rw [fieldKK, BitVec.extractLsb'_toNat, Nat.shiftRight_zero]

theorem fieldN_eq_zero_iff (w : Word) : fieldN w = 0#4 ↔ w.toNat % 16 = 0 := by
  rw [← fieldN_toNat, BitVec.toNat_eq]
  rfl

theorem decode8_rejects_iff (w : Word) :
    decode8 w = .error (.unknownOpcode w) ↔ w.toNat % 16 ∈ [0x8, 0x9, 0xA, 0xB, 0xC, 0xD, 0xF] := by
  unfold decode8
  rw [fieldN_toNat]
  split
  case h_10 =>
    simp only [imp_false] at *
    simp only [List.mem_cons, List.not_mem_nil, or_false, true_iff]
    omega
  all_goals
    rename_i hn
    simp [hn]

theorem decodeE_rejects_iff (w : Word) :
    decodeE w = .error (.unknownOpcode w) ↔ w.toNat % 256 ∉ [0x9E, 0xA1] := by
  unfold decodeE
  rw [fieldKK_toNat]
  split
  case h_3 =>
    simp only [imp_false] at *
    simp [*]
  all_goals
    rename_i hkk
    simp [hkk]

theorem decodeF_rejects_iff (w : Word) :
    decodeF w = .error (.unknownOpcode w) ↔
      w.toNat % 256 ∉ [0x07, 0x0A, 0x15, 0x18, 0x1E, 0x29, 0x33, 0x55, 0x65] := by
  unfold decodeF
  rw [fieldKK_toNat]
  split
  case h_10 =>
    simp only [imp_false] at *
    simp [*]
  all_goals
    rename_i hkk
    simp [hkk]

/-- Settles O3: each family rejects the words R96 lists under it. -/
theorem illegalWordsAreRejected : Obligations.IllegalWordsAreRejected := by
  intro w
  unfold decode
  rw [op_toNat]
  split
  case h_6 hop | h_10 hop => simp [hop, fieldN_eq_zero_iff]
  case h_9 hop => simp [hop, decode8_rejects_iff]
  case h_15 hop => simp [hop, decodeE_rejects_iff]
  case h_16 =>
    simp only [imp_false] at *
    have hop : w.toNat / 4096 = 0xF := by omega
    simp [hop, decodeF_rejects_iff]
  all_goals
    rename_i hop
    simp [hop]

end Sys2Proof
end

section
/-! SUPPORT. A Step on an illegal word (spec/60_exceptions.md R232). -/

namespace Sys2Proof.Machine

theorem engineStep_illegal {execute : Instr → State → Outcome} {s : State} {w : Word} {e : DecodeError}
    (keys : BitVec 16) (rand : Byte) (hfetch : s.fetch = .ok w) (hdecode : decode w = .error e) :
    engineStep execute keys rand s = .next ((s.latch keys rand).advance.raise (.unknownOpcode w)) := by
  simp only [engineStep, latch_fetch, hfetch, hdecode]

/-- Settles O7: the latch, the advance and the error are all such a Step does. -/
theorem illegalWordRaises : Obligations.IllegalWordRaises := by
  intro s keys rand w hpc hw hdecode
  have hfetch : s.fetch = .ok w := hw ▸ fetch_ok hpc
  exact engineStep_illegal keys rand hfetch hdecode

end Sys2Proof.Machine
end

section
/-! SUPPORT. A Step whose fetch fails, and a Step that runs the instruction at PC (spec/40_control_flow.md R120, R121). -/

namespace Sys2Proof.Machine

theorem engineStep_fetchError {execute : Instr → State → Outcome} {s : State} {e : Err}
    (keys : BitVec 16) (rand : Byte) (hfetch : s.fetch = .error e) :
    engineStep execute keys rand s = .next ((s.latch keys rand).raise e) := by
  simp only [engineStep, latch_fetch, hfetch]

theorem engineStep_legal {execute : Instr → State → Outcome} {s : State} {w : Word} {i : Instr}
    (keys : BitVec 16) (rand : Byte) (hfetch : s.fetch = .ok w) (hdecode : decode w = .ok i) :
    engineStep execute keys rand s = execute i (s.latch keys rand).advance := by
  simp only [engineStep, latch_fetch, hfetch, hdecode]

/-- The first failing byte of a fetch is PC itself, or 0x1000 where PC is 0xFFF (spec/92_eei_decisions.md D27). -/
theorem outOfRange_max_toNat (w : Word) :
    outOfRange (max w.toNat 4096) = .memoryOutOfRange (if 4096 ≤ w.toNat then w else 0x1000) := by
  rw [outOfRange]
  split
  case isTrue h => rw [Nat.max_eq_left h, BitVec.ofNat_toNat, BitVec.setWidth_eq]
  case isFalse h => rw [Nat.max_eq_right (by omega)]; rfl

/-- Settles O6: the latch and the error are all such a Step does. -/
theorem fetchPastEndRaises : Obligations.FetchPastEndRaises := by
  intro s keys rand hpc
  rw [← outOfRange_max_toNat]
  exact engineStep_fetchError keys rand (fetch_error hpc)

theorem countDown_eq_ofNat (n : Nat) (t : Byte) : countDown n t = BitVec.ofNat 8 (t.toNat - n) := by
  rw [← countDown_toNat, BitVec.ofNat_toNat, BitVec.setWidth_eq]

/-- The host's turn is taken off the list, and its Ticks count both timers down (spec/60_exceptions.md R238, R240). -/
theorem beginTurn_eq (s : State) :
    s.beginTurn =
      { s with
        dt := BitVec.ofNat 8 (s.dt.toNat - s.nextTurn.ticks)
        st := BitVec.ofNat 8 (s.st.toNat - s.nextTurn.ticks)
        turns := s.turns.tail
        turnNo := s.turnNo + 1 } := by
  rw [State.beginTurn, State.ticks, countDown_eq_ofNat, countDown_eq_ofNat]

/-- Settles O5: neither the latch nor the Ticks of the turn touch what the fetch reads. -/
theorem stepRunsDecodedInstruction : Obligations.StepRunsDecodedInstruction := by
  intro s i hpc hdecode
  constructor
  · intro keys rand
    exact engineStep_legal keys rand (fetch_ok hpc) hdecode
  · have hfetch : s.beginTurn.fetch = .ok (s.byteAt s.pc.toNat ++ s.byteAt (s.pc.toNat + 1)) := fetch_ok hpc
    rw [step, cycle, engineStep_legal _ _ hfetch hdecode, beginTurn_eq]
    rfl

end Sys2Proof.Machine
end

section
/-! SUPPORT. Jumps, skips, CALL and RET (spec/40_control_flow.md R123 to R131): the next state of each, and its frame. -/

namespace Sys2Proof.Safety

open Sys2Proof.Machine

variable (s : State)

/-- Settles O15: SYS writes RES alone. -/
theorem sysIsNoOp : Obligations.SysIsNoOp :=
  fun _ s => ⟨s.complete, rfl, rfl, (KeptExcept.refl [] s).complete⟩

/-- What every jump does: it writes PC alone, and completes. -/
theorem setPc_complete_kept (w : Word) : KeptExcept [.pc] s (s.setPc w).complete :=
  ((KeptExcept.refl [.pc] s).setPc (.head _) w).complete

/-- Settles O16: PC is the zero-extended address. -/
theorem jumpSetsPc : Obligations.JumpSetsPc :=
  fun nnn s => ⟨(s.setPc (zext16 nnn)).complete, rfl, rfl, zext16_toNat nnn, setPc_complete_kept s _⟩

/-- A 12-bit address and a byte add up without wrap (R131). -/
theorem zext16_add_byte_toNat (nnn : Addr12) (b : Byte) :
    (zext16 nnn + b.setWidth 16).toNat = nnn.toNat + b.toNat := by
  rw [BitVec.toNat_add, zext16_toNat, BitVec.toNat_setWidth_of_le (by decide)]
  omega

theorem highReg_val (nnn : Addr12) : (highReg nnn).val = nnn.toNat / 256 := by
  rw [highReg, BitVec.val_toFin, BitVec.extractLsb'_toNat, Nat.shiftRight_eq_div_pow]
  omega

theorem jumpReg_val (c : Config) (nnn : Addr12) :
    (jumpReg c nnn).val = if c.jumpOffset = .vx then nnn.toNat / 256 else 0 := by
  cases h : c.jumpOffset with
  | v0 => simp [jumpReg, h]
  | vx => simp [jumpReg, h, highReg_val]

/-- Settles O17: the register is the one `jumpReg` names, and the sum does not wrap. -/
theorem jumpWithOffsetAddsRegister : Obligations.JumpWithOffsetAddsRegister := by
  intro nnn s r hr
  obtain rfl : jumpReg s.cfg nnn = r := Fin.ext ((jumpReg_val s.cfg nnn).trans hr.symm)
  exact ⟨_, rfl, rfl, zext16_add_byte_toNat nnn _, setPc_complete_kept s _⟩

/-- Every skip: PC plus 2, mod 2^16, where the condition holds, and nothing else is written (R127 to R130). -/
theorem skipIf_complete_spec {c : Bool} {p : Prop} [Decidable p] (hc : c = true ↔ p) :
    ∃ t, (.next (s.skipIf c).complete : Outcome) = .next t ∧ t.res = .ok ∧
      t.pc.toNat = (if p then (s.pc.toNat + 2) % 65536 else s.pc.toNat) ∧ KeptExcept [.pc] s t := by
  refine ⟨_, rfl, rfl, ?_, ((KeptExcept.refl [.pc] s).skipIf (.head _) c).complete⟩
  rw [skipIf_eq, if_congr hc rfl rfl]
  split
  · exact BitVec.toNat_add s.pc 2
  · rfl

/-- A skip whose condition is that `p` fails. -/
theorem skipIf_complete_spec_not {c : Bool} {p : Prop} [Decidable p] (hc : c = true ↔ ¬p) :
    ∃ t, (.next (s.skipIf c).complete : Outcome) = .next t ∧ t.res = .ok ∧
      t.pc.toNat = (if p then s.pc.toNat else (s.pc.toNat + 2) % 65536) ∧ KeptExcept [.pc] s t := by
  simpa only [ite_not] using skipIf_complete_spec s hc

/-- Settles O21: SE skips where the two bytes agree, SNE where they differ. -/
theorem skipsAddTwoWhenTaken : Obligations.SkipsAddTwoWhenTaken :=
  fun _ _ _ s =>
    ⟨skipIf_complete_spec s beq_iff_eq, skipIf_complete_spec_not s bne_iff_ne,
      skipIf_complete_spec s beq_iff_eq, skipIf_complete_spec_not s bne_iff_ne⟩

variable {s}

theorem exec_ret_of_empty (hsp : s.sp.val = 0) : exec .ret s = .next (s.raise .stackUnderflow) := by
  rw [exec, execRet, pop_none hsp]

theorem exec_call_of_full (nnn : Addr12) (hsp : s.sp.val = 16) :
    exec (.call nnn) s = .next (s.raise .stackOverflow) := by
  rw [exec, execCall, push_none _ hsp]

/-- Settles O18: a pop takes the slot below SP and keeps it, and an empty stack has none. -/
theorem returnPops : Obligations.ReturnPops := by
  intro s
  constructor
  · intro k hsp
    have hpop := pop_some k hsp
    exact ⟨_, exec_ret_of_pop hpop, rfl, rfl, rfl, rfl,
      (((KeptExcept.refl _ s).pop (.tail _ (.head _)) hpop).setPc (.head _) _).complete⟩
  · intro hsp
    exact ⟨_, exec_ret_of_empty hsp, rfl, (KeptExcept.refl [] s).raise _⟩

/-- Settles O19: a push writes the slot at SP, and a full stack has none. -/
theorem callPushes : Obligations.CallPushes := by
  intro nnn s
  constructor
  · intro k hsp
    have hlt : s.sp.val < 16 := by omega
    obtain rfl : k = ⟨s.sp.val, hlt⟩ := Fin.ext hsp.symm
    have hpush := push_some s.pc hlt
    refine ⟨_, exec_call_of_push nnn hpush, rfl, zext16_toNat nnn, rfl, ?self, fun j hj => ?other,
      (((KeptExcept.refl _ s).push (.tail _ (.head _)) hpush).setPc (.head _) _).complete⟩
    case self => exact Vector.getElem_set_self hlt
    case other => exact Vector.getElem_set_ne hlt j.isLt fun h => hj (Fin.ext h.symm)
  · intro hsp
    exact ⟨_, exec_call_of_full nnn hsp, rfl, (KeptExcept.refl [] s).raise _⟩

end Sys2Proof.Safety
end

section
/-! SUPPORT. The random byte: RND alone reads it, so every other instruction carries it along (spec/40_control_flow.md R122). -/

namespace Sys2Proof.Machine

/-- The state with another random byte of the Step. -/
def State.withRand (s : State) (r : Byte) : State := { s with rand := r }

section
variable (s : State) (r : Byte)

@[simp] theorem withRand_cfg : (s.withRand r).cfg = s.cfg := rfl
@[simp] theorem withRand_getV (x : Reg) : (s.withRand r).getV x = s.getV x := rfl
@[simp] theorem withRand_nextKey : (s.withRand r).nextKey = s.nextKey := rfl

theorem skipIf_withRand (c : Bool) : (s.withRand r).skipIf c = (s.skipIf c).withRand r := by
  rw [skipIf_eq, skipIf_eq]
  rfl

theorem bumpIndex_withRand (x : Reg) : (s.withRand r).bumpIndex x = (s.bumpIndex x).withRand r := by
  rw [bumpIndex_eq, bumpIndex_eq]
  rfl

end

theorem passesLoops_withRand (r : Byte) : PassesLoops (·.withRand r) where
  cfg _ := rfl
  mem _ := rfl
  i _ := rfl
  fb _ := rfl
  setMem _ _ := rfl
  setV _ _ _ := rfl
  setFb _ _ := rfl
  complete _ := rfl
  raise _ _ := rfl

end Sys2Proof.Machine

namespace Sys2Proof.Safety

open Sys2Proof.Machine

/-- Every instruction but RND carries the random byte along: it neither reads nor writes it. -/
theorem exec_withRand (i : Instr) (hi : ∀ x kk, i ≠ .rnd x kk) (s : State) (r : Byte) :
    ∃ t, exec i s = .next t ∧ exec i (s.withRand r) = .next (t.withRand r) := by
  have hg := passesLoops_withRand r
  cases i with
  | rnd x kk => exact absurd rfl (hi x kk)
  | seImm x kk | sneImm x kk | seReg x y | sneReg x y =>
    exact ⟨_, rfl, congrArg (Host.Outcome.next ∘ State.complete) (skipIf_withRand s r _)⟩
  | skp x | sknp x =>
    refine ⟨_, rfl, ?_⟩
    simp only [exec, execSkp, execSknp, withRand_cfg, withRand_getV, skipIf_withRand]
    cases keyOf s.cfg (s.getV x) with
    | ok k => rfl
    | error e => rfl
  | ldVxK x =>
    refine ⟨_, rfl, ?_⟩
    simp only [exec, execLdVxK, withRand_nextKey]
    cases s.nextKey with
    | none => rfl
    | some k => rfl
  | ldF x =>
    refine ⟨_, rfl, ?_⟩
    simp only [exec, execLdF, withRand_cfg, withRand_getV]
    cases fontAddr (fontIndex s.cfg (s.getV x)) with
    | ok a => rfl
    | error e => rfl
  | call nnn =>
    by_cases hsp : s.sp.val < 16
    · exact ⟨_, exec_call_of_push nnn (push_some s.pc hsp),
        exec_call_of_push nnn (push_some (s := s.withRand r) s.pc hsp)⟩
    · have hfull : s.sp.val = 16 := by omega
      exact ⟨_, exec_call_of_full nnn hfull, exec_call_of_full (s := s.withRand r) nnn hfull⟩
  | ret =>
    by_cases hsp : s.sp.val = 0
    · exact ⟨_, exec_ret_of_empty hsp, exec_ret_of_empty (s := s.withRand r) hsp⟩
    · let k : Fin 16 := ⟨s.sp.val - 1, by omega⟩
      have hk : s.sp.val = k.val + 1 := (Nat.sub_one_add_one hsp).symm
      exact ⟨_, exec_ret_of_pop (pop_some k hk), exec_ret_of_pop (pop_some (s := s.withRand r) k hk)⟩
  | ldB x =>
    have hrun := congrArg Ran.finish (hg.storeBytes s.i.toNat (bcdDigits (s.getV x)) s)
    exact ⟨_, rfl, congrArg Host.Outcome.next (hrun.trans (hg.finish _))⟩
  | drw x y n =>
    exact ⟨_, rfl, congrArg Host.Outcome.next (hg.finish_andThen (hg.drawRows _ _ _ _ _ s) fun _ _ => rfl)⟩
  | ldMemVx x =>
    exact ⟨_, rfl, congrArg Host.Outcome.next
      (hg.finish_andThen (hg.storeBytes _ _ s) fun _ t => bumpIndex_withRand t r x)⟩
  | ldVxMem x =>
    exact ⟨_, rfl, congrArg Host.Outcome.next
      (hg.finish_andThen (hg.loadRegs _ _ s) fun _ t => bumpIndex_withRand t r x)⟩
  | _ => exact ⟨_, rfl, rfl⟩

/-- Settles O13: the next state carries the other byte along. -/
theorem onlyRndReadsRand : Obligations.OnlyRndReadsRand := by
  intro i s t r hi ht
  exact of_next (exec_withRand i hi s r) ht

end Sys2Proof.Safety
end

section
/-! SUPPORT. Loads, arithmetic and random (spec/41_alu.md R142 to R153): a result without a flag, a result with one, and the values both write. -/

namespace Sys2Proof.Safety

open Sys2Proof.Machine

variable (s : State) (x : Reg)

/-! ### A result without a flag -/

/-- What every write of a result without a flag leaves alone, VF among it (R143). -/
theorem setV_complete_frame (b : Byte) :
    RegsKeptExcept [x] s (s.setV x b).complete ∧ KeptExcept [.v] s (s.setV x b).complete :=
  ⟨fun _ hq => setV_getV_ne s b (List.ne_of_not_mem_cons hq).symm,
    ((KeptExcept.refl [.v] s).setV (.head _) x b).complete⟩

/-- A result without a flag that is given bit by bit (R145, R153). -/
theorem setV_complete_spec_bits {b : Byte} {bit : Nat → Bool} (hb : ∀ k, b.getLsbD k = bit k) :
    ∃ t, (.next (s.setV x b).complete : Outcome) = .next t ∧ t.res = .ok ∧
      (∀ k, (t.getV x).getLsbD k = bit k) ∧ RegsKeptExcept [x] s t ∧ KeptExcept [.v] s t := by
  refine ⟨_, rfl, rfl, fun k => ?_, setV_complete_frame s x b⟩
  rw [complete_getV, setV_getV_self, hb]

/-- Settles O22: the register written holds the byte. -/
theorem loadImmediate : Obligations.LoadImmediate :=
  fun x kk s => ⟨_, rfl, rfl, setV_getV_self s x kk, setV_complete_frame s x kk⟩

/-- Settles O23: byte addition is addition mod 256. -/
theorem addImmediateWrapsWithoutFlag : Obligations.AddImmediateWrapsWithoutFlag := by
  intro x kk s
  refine ⟨_, rfl, rfl, ?_, setV_complete_frame s x _⟩
  rw [complete_getV, setV_getV_self]
  exact BitVec.toNat_add (s.getV x) kk

/-- Settles O24: the register written holds the byte of the other. -/
theorem copyRegister : Obligations.CopyRegister :=
  fun x y s => ⟨_, rfl, rfl, setV_getV_self s x (s.getV y), setV_complete_frame s x _⟩

/-- Settles O25: the bits of the three logic operations. -/
theorem logicWithoutFlag : Obligations.LogicWithoutFlag :=
  fun x _ s =>
    ⟨setV_complete_spec_bits s x fun _ => BitVec.getLsbD_or, setV_complete_spec_bits s x fun _ => BitVec.getLsbD_and,
      setV_complete_spec_bits s x fun _ => BitVec.getLsbD_xor⟩

/-- Settles O29: the bits of the Step's random byte and of the mask. -/
theorem randomByteIsMasked : Obligations.RandomByteIsMasked :=
  fun x _ s => setV_complete_spec_bits s x fun _ => BitVec.getLsbD_and

/-! ### A result with a flag -/

/-- Every result with a flag: the destination where it is not VF, the flag last, and nothing else (R141). -/
theorem setWithFlag_complete_spec {r : Byte} {f : Bool} {m n : Nat} (hr : r.toNat = m) (hf : (flagByte f).toNat = n) :
    ∃ t, (.next (s.setWithFlag x r f).complete : Outcome) = .next t ∧ t.res = .ok ∧
      (x ≠ vF → (t.getV x).toNat = m) ∧ (t.getV vF).toNat = n ∧
      RegsKeptExcept [x, vF] s t ∧ KeptExcept [.v] s t := by
  refine ⟨_, rfl, rfl, fun hx => ?dest, ?flag, fun q hq => ?other,
    ((KeptExcept.refl [.v] s).setWithFlag (.head _) x r f).complete⟩
  case dest => rw [complete_getV, setWithFlag_getV_dest s r f hx, hr]
  case flag => rw [complete_getV, setWithFlag_getV_vF, hf]
  case other =>
    obtain ⟨hqx, hqv⟩ : q ≠ x ∧ q ≠ vF := by simpa using hq
    exact setWithFlag_getV_other s r f hqx hqv

/-- The byte of a decided flag. -/
theorem flagByte_decide_toNat (p : Prop) [Decidable p] : (flagByte (decide p)).toNat = if p then 1 else 0 := by
  rw [flagByte_toNat, if_congr decide_eq_true_iff rfl rfl]

/-- The byte of a flag that is bit `k` of a byte (R150, R152). -/
theorem flagByte_getLsbD_toNat (b : Byte) (k : Nat) : (flagByte (b.getLsbD k)).toNat = b.toNat / 2 ^ k % 2 := by
  rw [flagByte_toNat, ← Nat.toNat_testBit]
  exact (Bool.cond_eq_ite (b.getLsbD k) 1 0).symm

/-- Byte subtraction is subtraction mod 256, without a negative number. -/
theorem byte_sub_toNat (a b : Byte) : (a - b).toNat = (a.toNat + 256 - b.toNat) % 256 := by
  rw [BitVec.toNat_sub]
  omega

theorem shiftReg_eq (c : Config) (x y : Reg) : shiftReg c x y = if c.shiftSource = .vx then x else y := by
  cases h : c.shiftSource with
  | vx => simp [shiftReg, h]
  | vy => simp [shiftReg, h]

/-- Settles O26: the carry is the sum above 255. -/
theorem addRegistersWithCarry : Obligations.AddRegistersWithCarry :=
  fun x _ s => setWithFlag_complete_spec s x (BitVec.toNat_add _ _) (flagByte_decide_toNat _)

/-- Settles O27: a borrow is a subtrahend above the minuend. -/
theorem subtractWithNotBorrow : Obligations.SubtractWithNotBorrow :=
  fun x _ s =>
    ⟨setWithFlag_complete_spec s x (byte_sub_toNat _ _) (flagByte_decide_toNat _),
      setWithFlag_complete_spec s x (byte_sub_toNat _ _) (flagByte_decide_toNat _)⟩

/-- Settles O28: SHR halves and drops bit 0, SHL doubles mod 256 and drops bit 7. -/
theorem shiftsMoveBitToFlag : Obligations.ShiftsMoveBitToFlag := by
  intro x y r s hr
  obtain rfl : shiftReg s.cfg x y = r := (shiftReg_eq s.cfg x y).trans hr.symm
  constructor
  · refine setWithFlag_complete_spec s x ?half ?low
    case half => rw [BitVec.toNat_ushiftRight, Nat.shiftRight_eq_div_pow, Nat.pow_one]
    case low => rw [flagByte_getLsbD_toNat, Nat.pow_zero, Nat.div_one]
  · refine setWithFlag_complete_spec s x ?double ?high
    case double => rw [BitVec.toNat_shiftLeft, Nat.shiftLeft_eq, Nat.pow_one]
    case high =>
      rw [flagByte_getLsbD_toNat]
      omega

end Sys2Proof.Safety
end

section
/-! SUPPORT. Index register and memory transfers (spec/42_index_memory.md R170 to R175): what the two byte loops leave inside memory and past its end, and what each instruction makes of it. -/

namespace Sys2Proof.Safety

open Sys2Proof.Machine

/-! ### The store loop past the end -/

/-- A run of stores that reaches past the end of memory raises the first failing address: it puts the bytes whose address exists and keeps every other byte (spec/20_memory.md R78). -/
theorem storeBytes_pastEnd (s : State) {bs : List Byte} {a : Nat} (hne : bs ≠ []) (h : 4096 < a + bs.length) :
    ∃ m : Memory, State.storeBytes a bs s = .raised (outOfRange (firstBad a)) (s.setMem m) ∧
      (∀ (k : Nat) (hk : k < bs.length), a + k < 4096 → (s.setMem m).byteAt (a + k) = bs[k]) ∧
      BytesKeptOutside a (4096 - a) s (s.setMem m) := by
  obtain ⟨m, -, hread, hrun⟩ := storeBytes_spec bs a s
  refine ⟨m, ?run, fun k hk hin => ?stored, fun b hb => ?kept⟩
  case run =>
    rw [hrun, if_neg (not_or.2 ⟨Nat.not_le.2 h, hne⟩)]
    rfl
  case stored =>
    rw [hread, dif_pos (by omega)]
    simp
  case kept => rw [hread, dif_neg (by omega)]

/-! ### Binary-coded decimal -/

@[simp] theorem bcdDigits_length (b : Byte) : (bcdDigits b).length = 3 := rfl

/-- The bytes stored are the digits: none exceeds a byte (R173). -/
theorem bcdDigits_getElem_toNat (b : Byte) :
    (bcdDigits b)[0].toNat = b.toNat / 100 ∧ (bcdDigits b)[1].toNat = b.toNat / 10 % 10 ∧
      (bcdDigits b)[2].toNat = b.toNat % 10 := by
  have hb := b.isLt
  simp only [bcdDigits, List.getElem_cons_zero, List.getElem_cons_succ, BitVec.toNat_ofNat]
  omega

/-- Settles O33: the three stores are in range, and each byte stored is its digit. -/
theorem storeBcdDigits : Obligations.StoreBcdDigits := by
  intro x s h
  obtain ⟨hundreds, tens, units⟩ := bcdDigits_getElem_toNat (s.getV x)
  obtain ⟨m, hrun, hbytes, hkept⟩ := storeBytes_inRange (s := s) (bcdDigits (s.getV x)) h
  have hexec : exec (.ldB x) s = .next (s.setMem m).complete := by rw [exec, execLdB, hrun, Ran.finish]
  refine ⟨_, hexec, rfl, ?hundreds, ?tens, ?units, hkept, ((KeptExcept.refl [.mem] s).setMem (.head _) m).complete⟩
  case hundreds => exact (congrArg BitVec.toNat (hbytes 0 (by simp))).trans hundreds
  case tens => exact (congrArg BitVec.toNat (hbytes 1 (by simp))).trans tens
  case units => exact (congrArg BitVec.toNat (hbytes 2 (by simp))).trans units

/-- Settles O34: the last of the three stores fails, so the units are never stored. -/
theorem storeBcdPastEnd : Obligations.StoreBcdPastEnd := by
  intro x s h
  obtain ⟨hundreds, tens, -⟩ := bcdDigits_getElem_toNat (s.getV x)
  obtain ⟨m, hrun, hbytes, hkept⟩ :=
    storeBytes_pastEnd s (bs := bcdDigits (s.getV x)) (List.cons_ne_nil _ _) (Nat.lt_succ_of_le h)
  have hexec : exec (.ldB x) s = .next ((s.setMem m).raise (outOfRange (firstBad s.i.toNat))) := by
    rw [exec, execLdB, hrun, Ran.finish]
  refine ⟨_, hexec, rfl, fun hin => ?hundreds, fun hin => ?tens, hkept,
    ((KeptExcept.refl [.mem] s).setMem (.head _) m).raise _⟩
  case hundreds => exact (congrArg BitVec.toNat (hbytes 0 (by simp) hin)).trans hundreds
  case tens => exact (congrArg BitVec.toNat (hbytes 1 (by simp) hin)).trans tens

/-! ### The register range to memory -/

/-- The optional increment does not wrap where the last address is in range (R174, R175). -/
theorem bumpIndex_i_toNat (s : State) {x : Reg} (h : s.i.toNat + x.val < 4096) :
    (s.bumpIndex x).i.toNat =
      if s.cfg.loadStoreIncrement = .xPlus1 then s.i.toNat + x.val + 1 else s.i.toNat := by
  rw [bumpIndex_eq, setI_i, apply_ite BitVec.toNat, BitVec.toNat_ofNat, Nat.mod_eq_of_lt (by omega)]

theorem bumpIndex_getV (s : State) (x q : Reg) : (s.bumpIndex x).getV q = s.getV q := by
  rw [bumpIndex_eq, setI_getV]

theorem bumpIndex_byteAt (s : State) (x : Reg) (a : Nat) : (s.bumpIndex x).byteAt a = s.byteAt a := by
  rw [bumpIndex_eq, setI_byteAt]

/-- Settles O35: the bytes are those of the store loop, which the increment of `I` leaves alone. -/
theorem storeRegisters : Obligations.StoreRegisters := by
  intro x s h
  obtain ⟨m, hexec, hbytes, hkept⟩ := exec_ldMemVx_inRange h
  refine ⟨_, hexec, rfl, fun k hk => ?stored, bumpIndex_i_toNat (s.setMem m) h, fun b hb => ?kept, ?frame⟩
  case stored => rw [complete_byteAt, bumpIndex_byteAt, hbytes k hk]
  case kept => rw [complete_byteAt, bumpIndex_byteAt, hkept b hb]
  case frame =>
    have hmem : KeptExcept [.mem, .i] s (s.setMem m) := (KeptExcept.refl _ s).setMem (.head _) m
    exact (hmem.bumpIndex (fun _ => .tail _ (.head _)) x).complete

/-- Settles O36: the store to `I + X` fails, so the run raises before the increment of `I`. -/
theorem storeRegistersPastEnd : Obligations.StoreRegistersPastEnd := by
  intro x s h
  have hlen : ((regsUpTo x).map s.getV).length = x.val + 1 := by rw [List.length_map, regsUpTo_length]
  have hne : (regsUpTo x).map s.getV ≠ [] := List.map_eq_nil_iff.not.2 (regsUpTo_ne_nil x)
  obtain ⟨m, hrun, hbytes, hkept⟩ := storeBytes_pastEnd s (a := s.i.toNat) hne (by omega)
  have hexec : exec (.ldMemVx x) s = .next ((s.setMem m).raise (outOfRange (firstBad s.i.toNat))) := by
    rw [exec, execLdMemVx, hrun, Ran.andThen, Ran.finish]
  refine ⟨_, hexec, rfl, fun k hk => ?stored, hkept, ((KeptExcept.refl [.mem] s).setMem (.head _) m).raise _⟩
  case stored => rw [raise_byteAt, hbytes k.val (by omega) hk, List.getElem_map, regsUpTo_getElem]

/-! ### Memory to the register range -/

/-- The load of `V0` to `VX` from `a` on: each register in the range whose byte exists is loaded, every other one is kept, and the run is done exactly where the last byte exists (R175, spec/20_memory.md R78). -/
theorem loadRegs_regsUpTo_spec (s : State) (a : Nat) (x : Reg) :
    ∃ v : Vector Byte 16,
      (∀ k : Reg, k ≤ x → a + k.val < 4096 → v[k] = s.byteAt (a + k.val)) ∧
      (∀ k : Reg, (x < k ∨ 4096 ≤ a + k.val) → v[k] = s.v[k]) ∧
      State.loadRegs a (regsUpTo x) s =
        if a + x.val < 4096 then .done () { s with v := v }
        else .raised (outOfRange (firstBad a)) { s with v := v } := by
  obtain ⟨v, hload, hkeep, hrun⟩ := loadRegs_spec (regsUpTo x) (regsUpTo_nodup x) a s
  rw [regsUpTo_length] at hrun
  refine ⟨v, fun k hk hin => ?loaded, fun k hk => hkeep k fun j hj hin => ?kept, ?run⟩
  case loaded =>
    have hk' : k.val < (regsUpTo x).length := by rw [regsUpTo_length]; exact Nat.lt_succ_of_le hk
    simpa only [regsUpTo_getElem] using hload k.val hk' hin
  case kept =>
    rw [regsUpTo_getElem]
    rintro rfl
    rw [regsUpTo_length] at hj
    exact hk.elim (fun hlt => absurd hj (Nat.not_lt.2 (Nat.succ_le_of_lt hlt))) (Nat.not_le.2 hin)
  case run =>
    rw [hrun]
    exact if_congr (or_iff_left (regsUpTo_ne_nil x)) rfl rfl

/-- Settles O37: every register of the range is loaded, and the increment of `I` leaves the registers alone. -/
theorem loadRegisters : Obligations.LoadRegisters := by
  intro x s h
  obtain ⟨v, hload, hkeep, hrun⟩ := loadRegs_regsUpTo_spec s s.i.toNat x
  rw [if_pos h] at hrun
  have hexec : exec (.ldVxMem x) s = .next (({ s with v := v } : State).bumpIndex x).complete := by
    rw [exec, execLdVxMem, hrun, Ran.andThen, Ran.finish]
  refine ⟨_, hexec, rfl, fun k hk => ?loaded, fun k hk => ?kept, bumpIndex_i_toNat { s with v := v } h, ?frame⟩
  case loaded =>
    rw [complete_getV, bumpIndex_getV]
    exact hload k hk (by omega)
  case kept =>
    rw [complete_getV, bumpIndex_getV]
    exact hkeep k (.inl hk)
  case frame =>
    have hv : KeptExcept [.v, .i] s { s with v := v } := (KeptExcept.refl _ s).withV (.head _) v
    exact (hv.bumpIndex (fun _ => .tail _ (.head _)) x).complete

/-- Settles O38: the read at `I + X` fails, so a register whose byte exists lies below `X`, and the run raises before the increment of `I`. -/
theorem loadRegistersPastEnd : Obligations.LoadRegistersPastEnd := by
  intro x s h
  obtain ⟨v, hload, hkeep, hrun⟩ := loadRegs_regsUpTo_spec s s.i.toNat x
  rw [if_neg (Nat.not_lt.2 h)] at hrun
  have hexec : exec (.ldVxMem x) s =
      .next (({ s with v := v } : State).raise (outOfRange (firstBad s.i.toNat))) := by
    rw [exec, execLdVxMem, hrun, Ran.andThen, Ran.finish]
  refine ⟨_, hexec, rfl, fun k hk => ?loaded, fun k hk => hkeep k (.inr hk),
    ((KeptExcept.refl [.v] s).withV (.head _) v).raise _⟩
  case loaded => exact hload k (Fin.le_def.2 (by omega)) hk

/-! ### The index register -/

/-- Settles O30: the address zero-extended is the address. -/
theorem loadIndex : Obligations.LoadIndex :=
  fun nnn s => ⟨_, rfl, rfl, zext16_toNat nnn, ((KeptExcept.refl [.i] s).setI (.head _) _).complete⟩

theorem indexFlag_ceiling12 {c : Config} (h : c.indexOverflow = .ceiling12) (sum : Nat) :
    indexFlag c sum = decide (sum > 0x0FFF) := by
  rw [indexFlag, h]

/-- Bit 3 of the new index is bit 3 of its low byte (R171). -/
theorem indexFlag_bit3 {c : Config} (h : c.indexOverflow = .bit3) (sum : Nat) :
    indexFlag c sum = (BitVec.ofNat 8 sum).getLsbD 3 := by
  rw [indexFlag, h]
  exact (BitVec.getLsbD_ofNat 16 sum 3).trans (BitVec.getLsbD_ofNat 8 sum 3).symm

/-- Settles O31: the index is the sum mod 2^16, and VF, written last, the byte of the configured test. -/
theorem addToIndexWithOverflowFlag : Obligations.AddToIndexWithOverflowFlag := by
  rintro x s sum rfl
  refine ⟨_, rfl, rfl, BitVec.toNat_ofNat _ 16, fun hc => ?ceiling12, fun hb => ?bit3, fun q hq => ?other,
    (((KeptExcept.refl [.v, .i] s).setI (.tail _ (.head _)) _).setFlag (.head _) _).complete⟩
  case ceiling12 =>
    rw [complete_getV, State.setFlag, setV_getV_self, indexFlag_ceiling12 hc, flagByte_decide_toNat]
  case bit3 =>
    rw [complete_getV, State.setFlag, setV_getV_self, indexFlag_bit3 hb, flagByte_getLsbD_toNat, BitVec.toNat_ofNat]
    omega
  case other => exact setV_getV_ne _ _ (List.ne_of_not_mem_cons hq).symm

/-! ### The font address -/

/-- A font index that is below 16, or masked, is the digit (R172). -/
theorem fontIndex_toNat {c : Config} {b : Byte} (h : b.toNat < 16 ∨ c.fontIndexMode = .mask) :
    (fontIndex c b).toNat = b.toNat % 16 := by
  unfold fontIndex
  split
  case h_1 hfault =>
    have hb : b.toNat < 16 := h.resolve_right (by rw [hfault]; decide)
    exact (Nat.mod_eq_of_lt hb).symm
  case h_2 => rw [BitVec.toNat_ofNat, Nat.mod_eq_of_lt (by omega)]

theorem fontIndex_fault {c : Config} (h : c.fontIndexMode = .fault) (b : Byte) : fontIndex c b = b := by
  rw [fontIndex, h]

theorem exec_ldF_of_ok {x : Reg} {s : State} {a : Word} (h : fontAddr (fontIndex s.cfg (s.getV x)) = .ok a) :
    exec (.ldF x) s = .next (s.setI a).complete := by
  rw [exec, execLdF, h]

theorem exec_ldF_of_error {x : Reg} {s : State} {e : Err} (h : fontAddr (fontIndex s.cfg (s.getV x)) = .error e) :
    exec (.ldF x) s = .next (s.raise e) := by
  rw [exec, execLdF, h]

/-- Settles O32: a digit has its glyph's address, and under `fault` an index of 16 or more is no digit. -/
theorem loadFontAddress : Obligations.LoadFontAddress := by
  intro x s
  constructor
  · intro h
    have hdigit := fontIndex_toNat h
    have haddr := fontAddr_ok (g := fontIndex s.cfg (s.getV x)) (by omega)
    refine ⟨_, exec_ldF_of_ok haddr, rfl, ?_, ((KeptExcept.refl [.i] s).setI (.head _) _).complete⟩
    rw [complete_i, setI_i, BitVec.toNat_ofNat, hdigit, fontBase]
    omega
  · intro h hfault
    have hindex := fontIndex_fault hfault (s.getV x)
    exact ⟨_, exec_ldF_of_error (hindex.symm ▸ fontAddr_error h), rfl, (KeptExcept.refl [] s).raise _⟩

end Sys2Proof.Safety
end

section
/-! SUPPORT. The display (spec/43_display.md R190 to R193): one row of a sprite, the rows DRW draws inside memory, and what a second equal draw does. -/

namespace Sys2Proof.Safety

open Sys2Proof.Machine

/-- Settles O40: the blank frame is all CLS writes. -/
theorem clearScreen : Obligations.ClearScreen :=
  fun s => ⟨_, rfl, rfl, pixel_blank, ((KeptExcept.refl [.fb] s).setFb (.head _) Frame.blank).complete⟩

/-! ### One row -/

/-- A sprite row puts nothing left of its start column. -/
theorem le_of_spriteBit {b : Byte} {x0 c : Nat} (h : spriteBit b x0 c = true) : x0 ≤ c := by
  simp only [spriteBit, Bool.and_eq_true, decide_eq_true_eq] at h
  exact h.1.1

theorem decide_le_and_spriteBit (b : Byte) (x0 c : Nat) : (decide (x0 ≤ c) && spriteBit b x0 c) = spriteBit b x0 c :=
  Bool.and_eq_right_iff_imp.2 fun h => decide_eq_true (le_of_spriteBit h)

/-- Settles O41: the loop over the bits starts at bit 0, so every column the row covers is still to be drawn. -/
theorem drawByteXorsOneRow : Obligations.DrawByteXorsOneRow := by
  intro b x y f
  constructor
  · intro r c
    rw [drawByte, drawBits_pixel b _ _ 8 0 false f rfl, Nat.add_zero, Bool.and_assoc, decide_le_and_spriteBit,
      decide_eq_decide.2 Fin.ext_iff]
  · rw [drawByte, drawBits_hit b _ _ 8 0 false f rfl]
    constructor
    · rintro (h | ⟨c, -, hlit, hbit⟩)
      · cases h
      · exact ⟨_, c, rfl, hlit, hbit⟩
    · rintro ⟨r, c, hr, hlit, hbit⟩
      obtain rfl : r = ⟨y % 32, Nat.mod_lt _ (by decide)⟩ := Fin.ext hr
      exact .inr ⟨c, le_of_spriteBit hbit, hlit, hbit⟩

/-! ### The rows inside memory -/

/-- The row loop of DRW: of the `m` rows drawn it XORs in those whose byte exists and tells their collision; it is done exactly where every byte exists (R193, spec/20_memory.md R78). -/
theorem drawRows_frameXored {x0 : Nat} (hx : x0 < 64) (y0 : Nat) (n : Nibble) (s : State) {m : Nat}
    (hm : m = rowsDrawn s.cfg y0 n.toNat) :
    ∃ (f : Frame) (hit : Bool),
      FrameXored x0 y0 (min m (4096 - s.i.toNat)) s (s.setFb f) ∧
      (hit = true ↔ SpriteCollides x0 y0 (min m (4096 - s.i.toNat)) s) ∧
      State.drawRows x0 y0 n.toNat 0 false s =
        if m = 0 ∨ s.i.toNat + m ≤ 4096 then .done hit (s.setFb f)
        else .raised (outOfRange (firstBad s.i.toNat)) (s.setFb f) := by
  subst hm
  obtain ⟨f, hit, hpixel, hhit, hrun⟩ := drawRows_spec x0 y0 hx n.toNat 0 false s (by omega)
  simp only [Nat.add_zero, Nat.zero_add] at hpixel hhit hrun
  refine ⟨f, hit, fun r c => ⟨fun k hk hrow => ?drawn, fun hno => ?kept⟩, hhit.trans ⟨?hit, ?collides⟩, hrun⟩
  case drawn => exact (hpixel r c).1 k (Nat.zero_le k) (by omega) (by omega) hrow
  case kept => exact (hpixel r c).2 fun k _ hk hin => hno k (by omega)
  case hit =>
    rintro (h | ⟨k, r, c, -, hk, hin, hbit⟩)
    · cases h
    · exact ⟨k, r, c, by omega, hbit⟩
  case collides =>
    rintro ⟨k, r, c, hk, hbit⟩
    exact .inr ⟨k, r, c, Nat.zero_le k, by omega, by omega, hbit⟩

theorem flagByte_eq_one_iff (f : Bool) : flagByte f = 1 ↔ f = true := by
  cases f <;> decide

/-- Settles O42: every row's byte exists, so the loop is done and VF, written last, is its collision. -/
theorem drawXorsSprite : Obligations.DrawXorsSprite := by
  rintro x y n s _ _ m rfl rfl hm hin
  obtain ⟨f, hit, hframe, hhit, hrun⟩ := drawRows_frameXored (Nat.mod_lt _ (by decide)) _ n s hm
  rw [if_pos hin] at hrun
  rw [Nat.min_eq_left (by omega)] at hframe hhit
  have hexec : exec (.drw x y n) s = .next ((s.setFb f).setFlag hit).complete := by
    rw [exec, execDrw, hrun, Ran.andThen, Ran.finish]
  have hflag : ((s.setFb f).setFlag hit).complete.getV vF = flagByte hit := setV_getV_self _ vF _
  refine ⟨_, hexec, rfl, hframe, ?byte, ?collision, fun q hq => ?other,
    (((KeptExcept.refl [.v, .fb] s).setFb (.tail _ (.head _)) f).setFlag (.head _) hit).complete⟩
  case byte =>
    rw [hflag]
    exact flagByte_eq_zero_or_one hit
  case collision => rw [hflag, flagByte_eq_one_iff, hhit]
  case other => exact setV_getV_ne _ _ (List.ne_of_not_mem_cons hq).symm

/-- Settles O43: a byte is missing, so the loop raises after the rows before it, and VF is never written. -/
theorem drawPastEnd : Obligations.DrawPastEnd := by
  rintro x y n s _ _ m rfl rfl hm hpos hend
  obtain ⟨f, hit, hframe, -, hrun⟩ := drawRows_frameXored (Nat.mod_lt _ (by decide)) _ n s hm
  rw [if_neg (by omega)] at hrun
  rw [Nat.min_eq_right (by omega)] at hframe
  have hexec : exec (.drw x y n) s = .next ((s.setFb f).raise (outOfRange (firstBad s.i.toNat))) := by
    rw [exec, execDrw, hrun, Ran.andThen, Ran.finish]
  exact ⟨_, hexec, rfl, hframe, ((KeptExcept.refl [.fb] s).setFb (.head _) f).raise _⟩

/-! ### A second equal draw -/

section
variable {x0 y0 n : Nat} {s t u : State} (hfirst : FrameXored x0 y0 n s t)
  (hsprite : ∀ k, t.byteAt (t.i.toNat + k) = s.byteAt (s.i.toNat + k))
include hfirst hsprite

/-- XOR with the same sprite twice is no change. -/
theorem FrameXored.twice (hsecond : FrameXored x0 y0 n t u) (r : Fin 32) (c : Fin 64) :
    Frame.pixel u.fb r c = Frame.pixel s.fb r c := by
  by_cases hrow : ∃ k, k < n ∧ (y0 + k) % 32 = r.val
  · obtain ⟨k, hk, hr⟩ := hrow
    rw [(hsecond r c).1 k hk hr, (hfirst r c).1 k hk hr, hsprite, Bool.xor_assoc, Bool.xor_self, Bool.xor_false]
  · have hno : ∀ k, k < n → (y0 + k) % 32 ≠ r.val := fun k hk hr => hrow ⟨k, hk, hr⟩
    rw [(hsecond r c).2 hno, (hfirst r c).2 hno]

/-- Drawn over a blank screen, a sprite leaves its own bits lit: the same sprite then collides at each of its 1 bits (conflict C2). -/
theorem FrameXored.collides_iff_visible (hblank : ∀ r c, Frame.pixel s.fb r c = false) :
    SpriteCollides x0 y0 n t ↔ SpriteVisible x0 n s := by
  constructor
  · rintro ⟨k, r, c, hk, -, -, hbit⟩
    exact ⟨k, c, hk, hsprite k ▸ hbit⟩
  · rintro ⟨k, c, hk, hbit⟩
    refine ⟨k, ⟨(y0 + k) % 32, Nat.mod_lt _ (by decide)⟩, c, hk, rfl, ?lit, (hsprite k).symm ▸ hbit⟩
    case lit => rw [(hfirst _ c).1 k hk rfl, hblank, Bool.false_xor, hbit]

end

/-- Settles O44: the first draw keeps both coordinates, `I`, memory and `cfg`, so the second draws the same sprite at the same place. -/
theorem drawTwiceRestores : Obligations.DrawTwiceRestores := by
  intro x y n s x0 y0 m hx hy hx0 hy0 hm hin
  obtain ⟨t, ht, -, hfirst, -, -, hregs, hkept⟩ := drawXorsSprite x y n s x0 y0 m hx0 hy0 hm hin
  have hi : t.i = s.i := hkept.i (by decide)
  have hsprite (k : Nat) : t.byteAt (t.i.toNat + k) = s.byteAt (s.i.toNat + k) := by
    rw [hi, hkept.mem (by decide)]
  rw [← hregs x (List.not_mem_cons_of_ne_of_not_mem hx List.not_mem_nil)] at hx0
  rw [← hregs y (List.not_mem_cons_of_ne_of_not_mem hy List.not_mem_nil)] at hy0
  rw [← hkept.cfg] at hm
  rw [← hi] at hin
  obtain ⟨u, hu, hres, hsecond, -, hflag, -, -⟩ := drawXorsSprite x y n t x0 y0 m hx0 hy0 hm hin
  exact ⟨t, u, ht, hu, hres, hfirst.twice hsprite hsecond, fun hblank =>
    hflag.trans (hfirst.collides_iff_visible hsprite hblank)⟩

end Sys2Proof.Safety
end

section
/-! SUPPORT. Keys, the key wait and the timer copies (spec/44_input_timers.md R211 to R218): the next state of each, and the invariant of the key wait. -/

namespace Sys2Proof.Safety

open Sys2Proof.Machine

variable {s t : State} {x : Reg}

/-! ### The key wait -/

theorem exec_ldVxK_of_noKey (h : s.nextKey = none) :
    exec (.ldVxK x) s = .next (s.rewind.setWm .awaitingKey).complete := by
  rw [exec, execLdVxK, h]

theorem exec_ldVxK_of_key {k : Nat} (h : s.nextKey = some k) :
    exec (.ldVxK x) s = .next ((s.setV x (BitVec.ofNat 8 k)).setWm .running).complete := by
  rw [exec, execLdVxK, h]

theorem WaitsAtKeyWait.congr (h : WaitsAtKeyWait s) (hwm : t.wm = s.wm) (hfetch : t.fetch = s.fetch) :
    WaitsAtKeyWait t := by
  rw [WaitsAtKeyWait, hwm, hfetch]
  exact h

/-- While the engine waits, the word fetched is a key wait, whichever word the fetch is known to answer. -/
theorem WaitsAtKeyWait.decode_fetched (h : WaitsAtKeyWait s) (hwm : s.wm = .awaitingKey) {w : Word}
    (hfetch : s.fetch = .ok w) : ∃ x, decode w = .ok (.ldVxK x) := by
  obtain ⟨w', x, hfetch', hdecode⟩ := h hwm
  obtain rfl : w = w' := Except.ok.inj (hfetch.symm.trans hfetch')
  exact ⟨x, hdecode⟩

/-- The rewind of the key wait undoes the advance of the fetch (R215). -/
theorem advance_rewind (s : State) : s.advance.rewind = s :=
  congrArg s.setPc (BitVec.add_sub_cancel s.pc 2)

/-- The key wait is the only instruction that may write WM. -/
theorem wm_not_mem_writes (c : Config) {i : Instr} (hi : ∀ x, i ≠ .ldVxK x) : Part.wm ∉ writes c i := by
  cases i with
  | ldVxK x => exact absurd rfl (hi x)
  | ldMemVx x | ldVxMem x => rw [writes]; split <;> simp
  | _ => simp [writes]

/-- A key wait run after its fetch either waits at the same word again, or takes a key and ends the wait. -/
theorem exec_ldVxK_waits {w : Word} (hfetch : s.fetch = .ok w) (hdecode : decode w = .ok (.ldVxK x)) :
    ∃ t, exec (.ldVxK x) s.advance = .next t ∧ WaitsAtKeyWait t := by
  cases hkey : s.advance.nextKey with
  | none =>
    refine ⟨_, exec_ldVxK_of_noKey hkey, fun _ => ⟨w, x, ?_, hdecode⟩⟩
    rw [advance_rewind]
    exact hfetch
  | some k => exact ⟨_, exec_ldVxK_of_key hkey, fun hwait => nomatch hwait⟩

theorem engineStep_waitsAtKeyWait (keys : BitVec 16) (rand : Byte) (h : WaitsAtKeyWait s) :
    ∃ t, engineStep exec keys rand s = .next t ∧ WaitsAtKeyWait t := by
  obtain ⟨e, -, hstep⟩ | ⟨w, e, hfetch, hdecode, hstep⟩ | ⟨w, i, hfetch, hdecode, hstep⟩ :=
    engineStep_cases exec keys rand s
  case inl => exact ⟨_, hstep, h.congr rfl rfl⟩
  case inr.inl =>
    refine ⟨_, hstep, fun hwm => ?_⟩
    obtain ⟨x, hwait⟩ := h.decode_fetched hwm hfetch
    cases hdecode.symm.trans hwait
  case inr.inr =>
    rw [hstep]
    by_cases hi : ∃ x, i = .ldVxK x
    · obtain ⟨x, rfl⟩ := hi
      exact exec_ldVxK_waits (s := s.latch keys rand) hfetch hdecode
    · have hne := not_exists.1 hi
      obtain ⟨t, ht, hkept⟩ := exec_kept i (s.latch keys rand).advance
      refine ⟨t, ht, fun hwm => ?_⟩
      rw [hkept.wm (wm_not_mem_writes _ hne)] at hwm
      obtain ⟨x, hwait⟩ := h.decode_fetched hwm hfetch
      exact absurd (Except.ok.inj (hdecode.symm.trans hwait)) (hne x)

/-- Settles O53: a waiting engine fetches a key wait, which alone writes WM, and a poll without a key goes back to it. -/
theorem keyWaitStaysAtItsInstruction : Obligations.KeyWaitStaysAtItsInstruction := by
  intro s t h
  have hturn : WaitsAtKeyWait s.beginTurn := h.congr rfl rfl
  exact of_next (engineStep_waitsAtKeyWait _ _ hturn)

/-- Settles O46: the least key down is the next key, a number that fits a byte. -/
theorem keyWaitPolls : Obligations.KeyWaitPolls := by
  intro x s
  constructor
  · intro hnone
    exact ⟨_, exec_ldVxK_of_noKey (nextKey_none hnone), rfl, rfl, rfl,
      (((KeptExcept.refl [.pc, .wm] s).setPc (.head _) _).setWm (.tail _ (.head _)) _).complete⟩
  · intro k hdown hleast
    have hkey := nextKey_some hdown hleast
    have hk := nextKey_lt hkey
    refine ⟨_, exec_ldVxK_of_key hkey, rfl, ?value, rfl, fun q hq => ?other,
      (((KeptExcept.refl [.v, .wm] s).setV (.head _) x _).setWm (.tail _ (.head _)) _).complete⟩
    case value =>
      rw [complete_getV, setWm_getV, setV_getV_self, BitVec.toNat_ofNat, Nat.mod_eq_of_lt (by omega)]
    case other => exact setV_getV_ne s _ (List.ne_of_not_mem_cons hq).symm

/-! ### The key skips -/

theorem exec_skp_of_ok {k : Nat} (h : keyOf s.cfg (s.getV x) = .ok k) :
    exec (.skp x) s = .next (s.skipIf (s.isPressed k)).complete := by
  rw [exec, execSkp, h]

theorem exec_skp_of_error {e : Err} (h : keyOf s.cfg (s.getV x) = .error e) :
    exec (.skp x) s = .next (s.raise e) := by
  rw [exec, execSkp, h]

theorem exec_sknp_of_ok {k : Nat} (h : keyOf s.cfg (s.getV x) = .ok k) :
    exec (.sknp x) s = .next (s.skipIf (!s.isPressed k)).complete := by
  rw [exec, execSknp, h]

theorem exec_sknp_of_error {e : Err} (h : keyOf s.cfg (s.getV x) = .error e) :
    exec (.sknp x) s = .next (s.raise e) := by
  rw [exec, execSknp, h]

/-- Settles O45: a value that names a key skips by that key, and under `fault` one of 16 or more names none. -/
theorem keySkips : Obligations.KeySkips := by
  intro x s
  constructor
  · intro h
    have hkey := keyOf_ok h
    rw [exec_skp_of_ok hkey, exec_sknp_of_ok hkey]
    exact ⟨skipIf_complete_spec s Iff.rfl, skipIf_complete_spec_not s Bool.not_iff_not⟩
  · intro h hfault
    have hkey := keyOf_error h hfault
    have hkept := (KeptExcept.refl [] s).raise (.invalidKeyIndex (s.getV x))
    exact ⟨⟨_, exec_skp_of_error hkey, rfl, hkept⟩, ⟨_, exec_sknp_of_error hkey, rfl, hkept⟩⟩

/-! ### The timers -/

/-- Settles O47: each copy is one write, and the sound output is on exactly while ST is not 0 (spec/60_exceptions.md R239). -/
theorem timerCopies : Obligations.TimerCopies := by
  intro x s
  refine ⟨⟨_, rfl, rfl, setV_getV_self s x s.dt, setV_complete_frame s x _⟩,
    ⟨_, rfl, rfl, rfl, ((KeptExcept.refl [.dt] s).setDt (.head _) _).complete⟩,
    ⟨_, rfl, rfl, rfl, ?sound, ((KeptExcept.refl [.st] s).setSt (.head _) _).complete⟩⟩
  case sound => exact Bool.eq_iff_iff.2 (bne_iff_ne.trans decide_eq_true_iff.symm)

end Sys2Proof.Safety
end

section
/-! SUPPORT. Errors (spec/60_exceptions.md R230 to R238): every transaction answers a next state, each instruction ends with `Ok` or a listed error, and what a failing Step and a Tick keep. -/

namespace Sys2Proof.Safety

open Sys2Proof.Machine

variable {i : Instr} {s : State} {e : Err}

/-! ### The engine goes on -/

theorem engineStep_answers (keys : BitVec 16) (rand : Byte) (s : State) :
    ∃ t, engineStep exec keys rand s = .next t := by
  obtain ⟨e, -, hstep⟩ | ⟨w, e, -, -, hstep⟩ | ⟨w, i, -, -, hstep⟩ := engineStep_cases exec keys rand s
  case inl | inr.inl => exact ⟨_, hstep⟩
  case inr.inr =>
    obtain ⟨t, ht, -⟩ := exec_kept i (s.latch keys rand).advance
    exact ⟨t, hstep.trans ht⟩

/-- Settles O8: a Step answers a next state however it ends, and the other transactions are total functions of the state. -/
theorem engineNeverHalts : Obligations.EngineNeverHalts := by
  refine ⟨fun s => engineStep_answers _ _ s.beginTurn, fun tr s => ?_⟩
  cases tr with
  | step keys rand => exact engineStep_answers keys rand s
  | reset | loadRom image | tick => exact ⟨_, rfl⟩

/-! ### The errors of each instruction -/

/-- Run in `s`, the instruction `i` ends with `Ok`, or with an error the table of R230 lists for it. -/
def EndsAsListed (i : Instr) (s : State) : Prop :=
  ∃ t, exec i s = .next t ∧ (t.res = .ok ∨ ∃ e, t.res = .err e ∧ MayRaise i s e)

theorem EndsAsListed.of_ok {P : State → Prop} (h : ∃ t, exec i s = .next t ∧ t.res = .ok ∧ P t) : EndsAsListed i s := by
  obtain ⟨t, ht, hok, -⟩ := h
  exact ⟨t, ht, .inl hok⟩

theorem EndsAsListed.of_err {P : State → Prop} (h : ∃ t, exec i s = .next t ∧ t.res = .err e ∧ P t)
    (hraise : MayRaise i s e) : EndsAsListed i s := by
  obtain ⟨t, ht, herr, -⟩ := h
  exact ⟨t, ht, .inr ⟨e, herr, hraise⟩⟩

/-- Byte accesses that reach the end of memory may raise, and the error names the first failing address. -/
theorem mayRaise_memoryOutOfRange {n : Nat} (hacc : AccessesBytes i s n) (hpos : 0 < n) (hend : 4096 < s.i.toNat + n) :
    MayRaise i s (.memoryOutOfRange (BitVec.ofNat 16 (firstBad s.i.toNat))) := ⟨rfl, n, hacc, hpos, hend⟩

/-- An index of 4 bits, or any under `mask`, is taken; any other faults (spec/92_eei_decisions.md D5, D6). -/
theorem index_taken_or_faults (b : Byte) (m : IndexMode) :
    (b.toNat < 16 ∨ m = .mask) ∨ (16 ≤ b.toNat ∧ m = .fault) := by
  cases m with
  | mask => exact .inl (.inr rfl)
  | fault => exact (Nat.lt_or_ge b.toNat 16).imp .inl fun h => ⟨h, rfl⟩

theorem exec_endsAsListed (i : Instr) (s : State) : EndsAsListed i s := by
  cases i with
  | ret =>
    obtain hempty | hpos := Nat.eq_zero_or_pos s.sp.val
    · exact .of_err ((returnPops s).2 hempty) ⟨rfl, hempty⟩
    · exact .of_ok ((returnPops s).1 ⟨s.sp.val - 1, by omega⟩ (Nat.sub_add_cancel hpos).symm)
  | call nnn =>
    obtain hroom | hfull := Nat.lt_or_ge s.sp.val 16
    · exact .of_ok ((callPushes nnn s).1 ⟨s.sp.val, hroom⟩ rfl)
    · have hsp : s.sp.val = 16 := by omega
      exact .of_err ((callPushes nnn s).2 hsp) ⟨⟨nnn, rfl⟩, hsp⟩
  | ldF x =>
    obtain htaken | ⟨hge, hfault⟩ := index_taken_or_faults (s.getV x) s.cfg.fontIndexMode
    · exact .of_ok ((loadFontAddress x s).1 htaken)
    · exact .of_err ((loadFontAddress x s).2 hge hfault) ⟨x, rfl, rfl, hge, hfault⟩
  | skp x =>
    obtain htaken | ⟨hge, hfault⟩ := index_taken_or_faults (s.getV x) s.cfg.keyIndexMode
    · exact .of_ok ((keySkips x s).1 htaken).1
    · exact .of_err ((keySkips x s).2 hge hfault).1 ⟨x, .inl rfl, rfl, hge, hfault⟩
  | sknp x =>
    obtain htaken | ⟨hge, hfault⟩ := index_taken_or_faults (s.getV x) s.cfg.keyIndexMode
    · exact .of_ok ((keySkips x s).1 htaken).2
    · exact .of_err ((keySkips x s).2 hge hfault).2 ⟨x, .inr rfl, rfl, hge, hfault⟩
  | ldB x =>
    obtain hin | hend := Nat.lt_or_ge (s.i.toNat + 2) 4096
    · exact .of_ok (storeBcdDigits x s hin)
    · exact .of_err (storeBcdPastEnd x s hend)
        (mayRaise_memoryOutOfRange (.inr (.inl ⟨x, rfl, rfl⟩)) (by decide) (Nat.lt_succ_of_le hend))
  | ldMemVx x =>
    obtain hin | hend := Nat.lt_or_ge (s.i.toNat + x.val) 4096
    · exact .of_ok (storeRegisters x s hin)
    · exact .of_err (storeRegistersPastEnd x s hend)
        (mayRaise_memoryOutOfRange (.inr (.inr ⟨x, .inl rfl, rfl⟩)) (Nat.succ_pos _) (Nat.lt_succ_of_le hend))
  | ldVxMem x =>
    obtain hin | hend := Nat.lt_or_ge (s.i.toNat + x.val) 4096
    · exact .of_ok (loadRegisters x s hin)
    · exact .of_err (loadRegistersPastEnd x s hend)
        (mayRaise_memoryOutOfRange (.inr (.inr ⟨x, .inr rfl, rfl⟩)) (Nat.succ_pos _) (Nat.lt_succ_of_le hend))
  | drw x y n =>
    obtain ⟨m, hm⟩ : ∃ m, m = rowsDrawn s.cfg ((s.getV y).toNat % 32) n.toNat := ⟨_, rfl⟩
    by_cases hin : m = 0 ∨ s.i.toNat + m ≤ 4096
    · exact .of_ok (drawXorsSprite x y n s _ _ m rfl rfl hm hin)
    · have hpos : 0 < m := by omega
      have hend : 4096 < s.i.toNat + m := by omega
      exact .of_err (drawPastEnd x y n s _ _ m rfl rfl hm hpos hend)
        (mayRaise_memoryOutOfRange (.inl ⟨x, y, n, rfl, hm⟩) hpos hend)
  | ldVxK x =>
    cases hkey : s.nextKey with
    | none => exact ⟨_, exec_ldVxK_of_noKey hkey, .inl rfl⟩
    | some k => exact ⟨_, exec_ldVxK_of_key hkey, .inl rfl⟩
  | _ => exact ⟨_, rfl, .inl rfl⟩

/-- Settles O9: the error an instruction ends with is the one listed, since `RES` holds one result. -/
theorem errorsComeFromTheirInstructions : Obligations.ErrorsComeFromTheirInstructions := by
  intro i s t e ht herr
  obtain hok | ⟨e', herr', hraise⟩ := of_next (exec_endsAsListed i s) ht
  · cases hok.symm.trans herr
  · obtain rfl := Result.err.inj (herr'.symm.trans herr)
    exact hraise

/-! ### A Step that fails -/

/-- The writers of WM, DT and ST raise nothing: an instruction that may raise an error writes none of the three. -/
theorem MayRaise.not_mem_writes (h : MayRaise i s e) (c : Config) :
    Part.wm ∉ writes c i ∧ Part.dt ∉ writes c i ∧ Part.st ∉ writes c i := by
  cases i with
  | ldVxK x | ldDtVx x | ldStVx x => cases e <;> simp [MayRaise, AccessesBytes] at h
  | ldMemVx x | ldVxMem x => rw [writes]; split <;> simp
  | _ => simp [writes]

theorem engineStep_failing_kept (keys : BitVec 16) (rand : Byte) (s : State) :
    ∃ t, engineStep exec keys rand s = .next t ∧ (t.res ≠ .ok → t.wm = s.wm ∧ t.dt = s.dt ∧ t.st = s.st) := by
  obtain ⟨e, -, hstep⟩ | ⟨w, e, -, -, hstep⟩ | ⟨w, i, -, -, hstep⟩ := engineStep_cases exec keys rand s
  case inl | inr.inl => exact ⟨_, hstep, fun _ => ⟨rfl, rfl, rfl⟩⟩
  case inr.inr =>
    obtain ⟨t, ht, hkept⟩ := exec_kept i (s.latch keys rand).advance
    refine ⟨t, hstep.trans ht, fun hfail => ?_⟩
    obtain hok | ⟨e, -, hraise⟩ := of_next (exec_endsAsListed i _) ht
    · exact absurd hok hfail
    · obtain ⟨hwm, hdt, hst⟩ := hraise.not_mem_writes s.cfg
      exact ⟨hkept.wm hwm, hkept.dt hdt, hkept.st hst⟩

/-- Settles O10: neither a failing fetch, nor an illegal word, nor an instruction that raises writes WM, DT or ST. -/
theorem failingStepKeepsWaitModeAndTimers : Obligations.FailingStepKeepsWaitModeAndTimers :=
  fun s _ keys rand ht => of_next (engineStep_failing_kept keys rand s) ht

/-! ### The Tick -/

theorem KeptExcept.tick (s : State) : KeptExcept [.dt, .st] s s.tick :=
  ((KeptExcept.refl [.dt, .st] s).setDt (.head _) (tickDown s.dt)).setSt (.tail _ (.head _)) (tickDown s.st)

/-- Settles O48: each timer counts down one, and nothing else is written. -/
theorem tickCountsDown : Obligations.TickCountsDown :=
  fun s => ⟨s.tick, rfl, tickDown_toNat s.dt, tickDown_toNat s.st, rfl, .tick s⟩

end Sys2Proof.Safety
end
